-- ==== Sys2Proof/Word.lean ====
section
/-! DEFINITION. The widths of 00_scope.md rule R9: bytes, 16-bit values, 32-bit instruction words, 5-bit
register fields. Everything the spec calls a 16-bit value (register, immediate, pc, cycle, address) is a `Word`,
and `+` and `-` on it are modulo 2^16 (rule R12). -/

namespace Sys2Proof

/-- A byte of memory (rule R60). -/
abbrev Byte := BitVec 8

/-- A 16-bit value: a general register, an immediate, the pc, the cycle counter or an address (rules R9, R12). -/
abbrev Word := BitVec 16

/-- A fetched 32-bit instruction word (rule R90). -/
abbrev InstrWord := BitVec 32

/-- A 5-bit register field, the index of a general register with no offset (rules R9, R98). -/
abbrev RegIdx := BitVec 5

/-- `bool01(c)` of rule R16: 0x0001 when `c` holds, 0x0000 otherwise. -/
abbrev bool01 (c : Bool) : Word := if c then 1 else 0

end Sys2Proof
end

