-- ==== Sys2Proof/Syntax.lean ====
section
/-! DEFINITION. The instruction set as syntax: the three layouts (30_encoding.md R92 to R94), the closed set of
28 operations split by layout (40_engine.md R148), and `Instr`, one constructor per row of spec/opcode_table.json
in the table's order. An `Instr` holds exactly the fields decode takes out of the word (R97). -/

namespace Sys2Proof

/-- The three instruction layouts (rules R92, R93, R94). -/
inductive Layout where
  /-- Dest-Source-Source, R94 -/
  | dss
  /-- Dest-Source-Immediate, R93 -/
  | dsi
  /-- Immediate only, R92 -/
  | i
deriving DecidableEq, Repr

/-- The 14 operations of the DSS layout (rule R148). -/
inductive DssOp where
  | add | sub | and | or | xor | sll | srl | sra | slt | sltu | lhx | shx | jlrz | jlro
deriving DecidableEq, Repr

/-- The 13 operations of the DSI layout (rule R148). -/
inductive DsiOp where
  | addi | andi | ori | xori | slli | srli | srai | slti | sltiu | lh | sh | jlz | jlo
deriving DecidableEq, Repr

/-- The one operation of the I layout (rule R148). -/
inductive IOp where
  | halt
deriving DecidableEq, Repr

/-- How well the source attests an operation (rule R103). -/
inductive EvidenceClass where
  /-- named by the source -/
  | a
  /-- behaviour stated by the source, mnemonic the spec's -/
  | b
  /-- the source names only the class of the operation -/
  | c
deriving DecidableEq, Repr

/-- An instruction: one constructor per row of spec/opcode_table.json. `d`, `s1`, `s2` and `imm` are the fields
dest, source1, source2 and immediate of the row's layout. `halt` carries the immediate its layout has (R92),
which its meaning ignores (R102). -/
inductive Instr where
  | add (d s1 s2 : RegIdx)
  | sub (d s1 s2 : RegIdx)
  | and (d s1 s2 : RegIdx)
  | or (d s1 s2 : RegIdx)
  | xor (d s1 s2 : RegIdx)
  | sll (d s1 s2 : RegIdx)
  | srl (d s1 s2 : RegIdx)
  | sra (d s1 s2 : RegIdx)
  | slt (d s1 s2 : RegIdx)
  | sltu (d s1 s2 : RegIdx)
  | lhx (d s1 s2 : RegIdx)
  | shx (d s1 s2 : RegIdx)
  | jlrz (d s1 s2 : RegIdx)
  | jlro (d s1 s2 : RegIdx)
  | addi (d s1 : RegIdx) (imm : Word)
  | andi (d s1 : RegIdx) (imm : Word)
  | ori (d s1 : RegIdx) (imm : Word)
  | xori (d s1 : RegIdx) (imm : Word)
  | slli (d s1 : RegIdx) (imm : Word)
  | srli (d s1 : RegIdx) (imm : Word)
  | srai (d s1 : RegIdx) (imm : Word)
  | slti (d s1 : RegIdx) (imm : Word)
  | sltiu (d s1 : RegIdx) (imm : Word)
  | lh (d s1 : RegIdx) (imm : Word)
  | sh (d s1 : RegIdx) (imm : Word)
  | jlz (d s1 : RegIdx) (imm : Word)
  | jlo (d s1 : RegIdx) (imm : Word)
  | halt (imm : Word)
deriving DecidableEq, Repr

/-- An instruction seen as an operation of a layout with that layout's fields: what decode yields before the
operation is named (rule R142). -/
inductive Fields where
  | dss (op : DssOp) (d s1 s2 : RegIdx)
  | dsi (op : DsiOp) (d s1 : RegIdx) (imm : Word)
  | i (op : IOp) (imm : Word)
deriving DecidableEq, Repr

/-- The layout of the fields (rule R96: a function of the opcode alone). -/
def Fields.layout : Fields → Layout
  | .dss .. => .dss
  | .dsi .. => .dsi
  | .i .. => .i

end Sys2Proof
end

