-- ==== Sys2Proof/Config.lean ====
section
/-! DEFINITION. The engine's parameters (00_scope.md rule R10) as a structure that every rule of the model takes
as an argument, and the one free value of the model. The spec's default for each parameter stands in
Sys2Proof/Machine/Params.lean. R46: parameters are fixed configuration, not state.

`ASM_LITERAL_OVERFLOW` is OPEN and concerns the assembler only: it is a field of `AsmParams`, which has no default. -/

namespace Sys2Proof

/-- `MISALIGNED_FETCH` (rules R10, R66): what a fetch does at a pc that is not a multiple of 4. -/
inductive FetchRule where
  /-- fetch the four bytes at pc -/
  | execute
  /-- raise InvalidAddress(pc) -/
  | fault
deriving DecidableEq, Repr

/-- `EDGE_WRAP` (rules R10, R67): what an access that runs past 0xFFFF does. -/
inductive EdgeRule where
  /-- the byte after 0xFFFF is 0x0000 -/
  | wrap
  /-- raise InvalidAddress(a) -/
  | fault
deriving DecidableEq, Repr

/-- `SHIFT_AMOUNT_RULE` (rules R10, R220): how a shift treats an amount of 16 or more. -/
inductive ShiftRule where
  /-- the whole 16-bit amount counts, so 16 or more shifts everything out -/
  | full
  /-- the amount modulo 16 counts -/
  | mod16
  /-- any 16-bit result: `Config.shiftDraw` -/
  | draw
deriving DecidableEq, Repr

/-- Which of the three shift functions of rule R220 a shift uses. -/
inductive ShiftKind where
  | left | rightLogical | rightArithmetic
deriving DecidableEq, Repr

/-- FREE VALUE: the result of a shift by 16 or more under `SHIFT_AMOUNT_RULE = draw` (rule R220; log entry 5), a
function of the shift's kind, value and amount that has no body, so that a claim holds for every draw. -/
opaque Config.shiftDraw : ShiftKind → Word → Word → Word

/-- The parameters of rule R10 that the engine depends on. `OPCODE_MAP` is one map per layout, so that an
operation can only stand at a funct of its own layout (rule R148, last sentence). -/
structure Config where
  /-- `FORMAT_CODE` (R95) -/
  formatCode : Layout → BitVec 2
  /-- `OPCODE_MAP` on the DSS layout (R104) -/
  dssMap : BitVec 4 → Option DssOp
  /-- `OPCODE_MAP` on the DSI layout (R104) -/
  dsiMap : BitVec 4 → Option DsiOp
  /-- `OPCODE_MAP` on the I layout (R104) -/
  iMap : BitVec 4 → Option IOp
  /-- `RESET_VECTOR` (R40) -/
  resetVector : Word
  /-- `MISALIGNED_FETCH` (R66) -/
  misalignedFetch : FetchRule
  /-- `EDGE_WRAP` (R67) -/
  edgeWrap : EdgeRule
  /-- `SHIFT_AMOUNT_RULE` (R220) -/
  shiftAmount : ShiftRule
  /-- `HALT_COUNTS_CYCLE` (R146) -/
  haltCountsCycle : Bool
  /-- `RESET_CYCLE` (R45): `none` leaves the counter unchanged, `some v` sets it to `v` -/
  resetCycle : Option Word

/-- `ASM_LITERAL_OVERFLOW` (rules R10, R111): what the assembler does with a literal above 0xFFFF. OPEN. -/
inductive LiteralRule where
  | reject
  | truncate
deriving DecidableEq, Repr

/-- The assembler's open parameters; none has a default. -/
structure AsmParams where
  /-- `ASM_LITERAL_OVERFLOW` (R111, D31) -/
  literalOverflow : LiteralRule
  /-- the maximum length of an identifier, which the source does not give (R116, I8) -/
  maxIdent : Nat
  /-- whether the optional directives are accepted (R114, I9) -/
  directives : Bool
deriving DecidableEq, Repr

end Sys2Proof
end

