-- ==== Sys2Proof/Machine/Params.lean ====
section
/-! DEFINITION. The spec's default for every parameter of 00_scope.md rule R10, among them the default
`FORMAT_CODE` (R95) and `OPCODE_MAP` (R104). These are the spec's own choices (92_eei_decisions.md), not the real
repository's table (R8). -/

namespace Sys2Proof

/-- The default `FORMAT_CODE`: DSS = 0b01, DSI = 0b10, I = 0b11; 0b00 selects no layout (rule R95, D1). -/
def defaultFormatCode : Layout → BitVec 2
  | .dss => 0b01
  | .dsi => 0b10
  | .i => 0b11

/-- The DSS column of rule R104. -/
def defaultDssMap (funct : BitVec 4) : Option DssOp :=
  match funct.toNat with
  | 0x0 => some .add
  | 0x1 => some .sub
  | 0x2 => some .and
  | 0x3 => some .or
  | 0x4 => some .xor
  | 0x5 => some .sll
  | 0x6 => some .srl
  | 0x7 => some .sra
  | 0x8 => some .slt
  | 0x9 => some .sltu
  | 0xA => some .lhx
  | 0xB => some .shx
  | 0xC => some .jlrz
  | 0xD => some .jlro
  | _ => none

/-- The DSI column of rule R104. -/
def defaultDsiMap (funct : BitVec 4) : Option DsiOp :=
  match funct.toNat with
  | 0x0 => some .addi
  | 0x1 => some .andi
  | 0x2 => some .ori
  | 0x3 => some .xori
  | 0x4 => some .slli
  | 0x5 => some .srli
  | 0x6 => some .srai
  | 0x7 => some .slti
  | 0x8 => some .sltiu
  | 0x9 => some .lh
  | 0xA => some .sh
  | 0xB => some .jlz
  | 0xC => some .jlo
  | _ => none

/-- The I column of rule R104. -/
def defaultIMap (funct : BitVec 4) : Option IOp :=
  match funct.toNat with
  | 0x0 => some .halt
  | _ => none

/-- Every parameter at the default of rule R10: the machine that `exec`, `step` and `State.reset` are. -/
def Config.default : Config where
  formatCode := defaultFormatCode
  dssMap := defaultDssMap
  dsiMap := defaultDsiMap
  iMap := defaultIMap
  resetVector := 0x0100
  misalignedFetch := .execute
  edgeWrap := .wrap
  shiftAmount := .full
  haltCountsCycle := false
  resetCycle := none

/-- The evidence class of a DSS operation (rule R103). -/
def DssOp.evidence : DssOp → EvidenceClass
  | .add | .or => .a
  | .lhx | .shx | .jlrz | .jlro => .b
  | .sub | .and | .xor | .sll | .srl | .sra | .slt | .sltu => .c

/-- The evidence class of a DSI operation (rule R103). -/
def DsiOp.evidence : DsiOp → EvidenceClass
  | .addi | .ori | .srli | .srai => .a
  | .lh | .sh | .jlz | .jlo => .b
  | .andi | .xori | .slli | .slti | .sltiu => .c

/-- The evidence class of an I operation (rule R103). -/
def IOp.evidence : IOp → EvidenceClass
  | .halt => .a

/-- The parameters with `OPCODE_MAP` restricted to the attested classes A and B (rule R103). -/
def Config.attested (c : Config) : Config :=
  { c with
    dssMap := fun f => (c.dssMap f).filter fun op => op.evidence ≠ .c
    dsiMap := fun f => (c.dsiMap f).filter fun op => op.evidence ≠ .c
    iMap := fun f => (c.iMap f).filter fun op => op.evidence ≠ .c }

end Sys2Proof
end

