-- ==== Sys2Proof/WellFormed.lean ====
section
/-! DEFINITION. The checks on syntax. The widths of an instruction's fields hold by their types (rule R98: every
value 0..31 is legal in a register field; rule R100: every 16-bit immediate is legal); what is left to check is that the
parameters give the instruction an opcode at all (rule R104), and that `FORMAT_CODE` is injective (rule R95). -/

namespace Sys2Proof

/-- An instruction as an operation of its layout and that layout's fields (rule R148). -/
def Instr.toFields : Instr → Fields
  | .add d s1 s2 => .dss .add d s1 s2
  | .sub d s1 s2 => .dss .sub d s1 s2
  | .and d s1 s2 => .dss .and d s1 s2
  | .or d s1 s2 => .dss .or d s1 s2
  | .xor d s1 s2 => .dss .xor d s1 s2
  | .sll d s1 s2 => .dss .sll d s1 s2
  | .srl d s1 s2 => .dss .srl d s1 s2
  | .sra d s1 s2 => .dss .sra d s1 s2
  | .slt d s1 s2 => .dss .slt d s1 s2
  | .sltu d s1 s2 => .dss .sltu d s1 s2
  | .lhx d s1 s2 => .dss .lhx d s1 s2
  | .shx d s1 s2 => .dss .shx d s1 s2
  | .jlrz d s1 s2 => .dss .jlrz d s1 s2
  | .jlro d s1 s2 => .dss .jlro d s1 s2
  | .addi d s1 imm => .dsi .addi d s1 imm
  | .andi d s1 imm => .dsi .andi d s1 imm
  | .ori d s1 imm => .dsi .ori d s1 imm
  | .xori d s1 imm => .dsi .xori d s1 imm
  | .slli d s1 imm => .dsi .slli d s1 imm
  | .srli d s1 imm => .dsi .srli d s1 imm
  | .srai d s1 imm => .dsi .srai d s1 imm
  | .slti d s1 imm => .dsi .slti d s1 imm
  | .sltiu d s1 imm => .dsi .sltiu d s1 imm
  | .lh d s1 imm => .dsi .lh d s1 imm
  | .sh d s1 imm => .dsi .sh d s1 imm
  | .jlz d s1 imm => .dsi .jlz d s1 imm
  | .jlo d s1 imm => .dsi .jlo d s1 imm
  | .halt imm => .i .halt imm

/-- The sixteen values of the 4-bit funct field (rule R91). -/
def allFuncts : List (BitVec 4) := (List.range 16).map (BitVec.ofNat 4)

/-- A funct that `OPCODE_MAP` gives the operation, the lowest if there are several; `none` where there is none. -/
def functOf {α : Type} [DecidableEq α] (m : BitVec 4 → Option α) (op : α) : Option (BitVec 4) :=
  allFuncts.find? fun f => decide (m f = some op)

/-- The instruction's operation has an opcode under `c` (rules R104, R106). Under the default parameters every
instruction has one; under `Config.attested` the class C operations have none. -/
def Instr.wellFormed (c : Config) (i : Instr) : Bool :=
  match i.toFields with
  | .dss op _ _ _ => (functOf c.dssMap op).isSome
  | .dsi op _ _ _ => (functOf c.dsiMap op).isSome
  | .i op _ => (functOf c.iMap op).isSome

/-- `FORMAT_CODE` is injective (rule R95). -/
def Config.wellFormed (c : Config) : Bool :=
  c.formatCode .dss ≠ c.formatCode .dsi && c.formatCode .dss ≠ c.formatCode .i &&
    c.formatCode .dsi ≠ c.formatCode .i

end Sys2Proof
end

