-- ==== Sys2Proof/Decode.lean ====
section
/-! DEFINITION. Decode (30_encoding.md R97), total on any word and any bytes and rejecting by name, and after it the
encoder of rule R105. Both take the parameters `FORMAT_CODE` and `OPCODE_MAP` (rule R10); `decode` and `encode` are
the machine's own, at the defaults. -/

namespace Sys2Proof

/-- Why a word or a run of bytes is no instruction (rule R106). -/
inductive DecodeReject where
  /-- the format field of the word selects no layout -/
  | noLayout (w : InstrWord)
  /-- `OPCODE_MAP` gives the word's funct no operation under its layout -/
  | unmapped (w : InstrWord)
  /-- fewer than the four bytes of an instruction are left (rule R90) -/
  | tooShort
deriving DecidableEq, Repr

/-! ### Fields of a word -/

/-- `w[1:0]`, the format field (rule R91). -/
def formatField (w : InstrWord) : BitVec 2 := w.extractLsb' 0 2

/-- `w[5:2]`, the funct field (rule R91). -/
def functField (w : InstrWord) : BitVec 4 := w.extractLsb' 2 4

/-- `w[10:6]`, the dest field (rules R93, R94). -/
def destField (w : InstrWord) : RegIdx := w.extractLsb' 6 5

/-- `w[15:11]`, the source1 field (rules R93, R94). -/
def source1Field (w : InstrWord) : RegIdx := w.extractLsb' 11 5

/-- `w[20:16]`, the source2 field (rule R94). -/
def source2Field (w : InstrWord) : RegIdx := w.extractLsb' 16 5

/-- `w[31:16]`, the immediate field (rules R92, R93, R100). -/
def immField (w : InstrWord) : Word := w.extractLsb' 16 16

/-- The 6-bit opcode `w[5:0]` (rule R91). -/
def opcodeField (w : InstrWord) : BitVec 6 := w.extractLsb' 0 6

/-! ### Decode -/

/-- The instruction a DSS operation with its fields is. -/
def DssOp.toInstr (op : DssOp) (d s1 s2 : RegIdx) : Instr :=
  match op with
  | .add => .add d s1 s2
  | .sub => .sub d s1 s2
  | .and => .and d s1 s2
  | .or => .or d s1 s2
  | .xor => .xor d s1 s2
  | .sll => .sll d s1 s2
  | .srl => .srl d s1 s2
  | .sra => .sra d s1 s2
  | .slt => .slt d s1 s2
  | .sltu => .sltu d s1 s2
  | .lhx => .lhx d s1 s2
  | .shx => .shx d s1 s2
  | .jlrz => .jlrz d s1 s2
  | .jlro => .jlro d s1 s2

/-- The instruction a DSI operation with its fields is. -/
def DsiOp.toInstr (op : DsiOp) (d s1 : RegIdx) (imm : Word) : Instr :=
  match op with
  | .addi => .addi d s1 imm
  | .andi => .andi d s1 imm
  | .ori => .ori d s1 imm
  | .xori => .xori d s1 imm
  | .slli => .slli d s1 imm
  | .srli => .srli d s1 imm
  | .srai => .srai d s1 imm
  | .slti => .slti d s1 imm
  | .sltiu => .sltiu d s1 imm
  | .lh => .lh d s1 imm
  | .sh => .sh d s1 imm
  | .jlz => .jlz d s1 imm
  | .jlo => .jlo d s1 imm

/-- The instruction an I operation with its field is. -/
def IOp.toInstr (op : IOp) (imm : Word) : Instr :=
  match op with
  | .halt => .halt imm

/-- Decode as rule R97 writes it: the format field first, then the fields of that layout, then `OPCODE_MAP`.
Reserved fields are not looked at (rule R101). -/
def decodeWith (c : Config) (w : InstrWord) : Except DecodeReject Instr :=
  if formatField w = c.formatCode .i then
    match c.iMap (functField w) with
    | none => .error (.unmapped w)
    | some op => .ok (op.toInstr (immField w))
  else if formatField w = c.formatCode .dsi then
    match c.dsiMap (functField w) with
    | none => .error (.unmapped w)
    | some op => .ok (op.toInstr (destField w) (source1Field w) (immField w))
  else if formatField w = c.formatCode .dss then
    match c.dssMap (functField w) with
    | none => .error (.unmapped w)
    | some op => .ok (op.toInstr (destField w) (source1Field w) (source2Field w))
  else .error (.noLayout w)

/-- Decode under the default parameters. -/
def decode (w : InstrWord) : Except DecodeReject Instr := decodeWith Config.default w

/-- A 32-bit word from its four bytes, the byte at the lowest address first (rules R63, R65). -/
def wordOfBytes (b0 b1 b2 b3 : Byte) : InstrWord := b3 ++ b2 ++ b1 ++ b0

/-- Decode of a run of bytes: exactly four bytes are consumed (rule R90), and the rest is handed on. -/
def decodeBytes : List Byte → Except DecodeReject (Instr × List Byte)
  | b0 :: b1 :: b2 :: b3 :: rest =>
    match decode (wordOfBytes b0 b1 b2 b3) with
    | .error r => .error r
    | .ok i => .ok (i, rest)
  | _ => .error .tooShort

/-! ### Encode -/

/-- An I-format word; bits [15:6] are reserved and 0 (rules R92, R101, R105). -/
def packI (code : BitVec 2) (funct : BitVec 4) (imm : Word) : InstrWord :=
  imm ++ (0 : BitVec 10) ++ funct ++ code

/-- A DSI-format word (rules R93, R105). -/
def packDsi (code : BitVec 2) (funct : BitVec 4) (d s1 : RegIdx) (imm : Word) : InstrWord :=
  imm ++ s1 ++ d ++ funct ++ code

/-- A DSS-format word; bits [31:21] are reserved and 0 (rules R94, R101, R105). -/
def packDss (code : BitVec 2) (funct : BitVec 4) (d s1 s2 : RegIdx) : InstrWord :=
  (0 : BitVec 11) ++ s2 ++ s1 ++ d ++ funct ++ code

/-- The encoder for any parameters: `none` where `OPCODE_MAP` gives the operation no funct. -/
def encodeWith (c : Config) (i : Instr) : Option InstrWord :=
  match i.toFields with
  | .dss op d s1 s2 => (functOf c.dssMap op).map fun f => packDss (c.formatCode .dss) f d s1 s2
  | .dsi op d s1 imm => (functOf c.dsiMap op).map fun f => packDsi (c.formatCode .dsi) f d s1 imm
  | .i op imm => (functOf c.iMap op).map fun f => packI (c.formatCode .i) f imm

/-- The funct column of rule R104 for the DSS operations. -/
def DssOp.funct : DssOp → BitVec 4
  | .add => 0x0 | .sub => 0x1 | .and => 0x2 | .or => 0x3 | .xor => 0x4 | .sll => 0x5 | .srl => 0x6
  | .sra => 0x7 | .slt => 0x8 | .sltu => 0x9 | .lhx => 0xA | .shx => 0xB | .jlrz => 0xC | .jlro => 0xD

/-- The funct column of rule R104 for the DSI operations. -/
def DsiOp.funct : DsiOp → BitVec 4
  | .addi => 0x0 | .andi => 0x1 | .ori => 0x2 | .xori => 0x3 | .slli => 0x4 | .srli => 0x5 | .srai => 0x6
  | .slti => 0x7 | .sltiu => 0x8 | .lh => 0x9 | .sh => 0xA | .jlz => 0xB | .jlo => 0xC

/-- The funct column of rule R104 for the I operation. -/
def IOp.funct : IOp → BitVec 4
  | .halt => 0x0

/-- The encoder under the default parameters, written from the table of rule R104. -/
def encode (i : Instr) : InstrWord :=
  match i.toFields with
  | .dss op d s1 s2 => packDss (defaultFormatCode .dss) op.funct d s1 s2
  | .dsi op d s1 imm => packDsi (defaultFormatCode .dsi) op.funct d s1 imm
  | .i op imm => packI (defaultFormatCode .i) op.funct imm

/-- The opcode column of rule R104, `(funct << 2) | format`. -/
def Instr.opcode : Instr → BitVec 6
  | .add .. => 0x01
  | .sub .. => 0x05
  | .and .. => 0x09
  | .or .. => 0x0D
  | .xor .. => 0x11
  | .sll .. => 0x15
  | .srl .. => 0x19
  | .sra .. => 0x1D
  | .slt .. => 0x21
  | .sltu .. => 0x25
  | .lhx .. => 0x29
  | .shx .. => 0x2D
  | .jlrz .. => 0x31
  | .jlro .. => 0x35
  | .addi .. => 0x02
  | .andi .. => 0x06
  | .ori .. => 0x0A
  | .xori .. => 0x0E
  | .slli .. => 0x12
  | .srli .. => 0x16
  | .srai .. => 0x1A
  | .slti .. => 0x1E
  | .sltiu .. => 0x22
  | .lh .. => 0x26
  | .sh .. => 0x2A
  | .jlz .. => 0x2E
  | .jlo .. => 0x32
  | .halt .. => 0x03

/-- The byte `k` (0 the lowest address) of a word in memory (rules R63, R65). -/
def byteOf (w : InstrWord) (k : Nat) : Byte := w.extractLsb' (8 * k) 8

/-- The four bytes of a word, lowest address first (rules R63, R90). -/
def bytesOf (w : InstrWord) : List Byte := [byteOf w 0, byteOf w 1, byteOf w 2, byteOf w 3]

/-- The bytes of an instruction in memory. -/
def encodeBytes (i : Instr) : List Byte := bytesOf (encode i)

/-- The word whose bits below `nbits` are those of `w` and whose other bits are 0: an instruction as
spec/opcode_table.json numbers its bits. -/
def tableWord (nbits w : Nat) : InstrWord := BitVec.ofNat 32 (w % 2 ^ nbits)

/-- The instruction the decoder reads from the bytes of the table's word `w`, `none` where it refuses it. -/
def decodeTableWord (nbits w : Nat) : Option Instr :=
  match decodeBytes (bytesOf (tableWord nbits w)) with
  | .ok (i, _) => some i
  | .error _ => none

end Sys2Proof
end

