-- ==== Sys2Proof/Machine/State.lean ====
section
/-! DEFINITION. The architectural state (10_state.md, "The whole architectural state is listed below. Nothing else is
state"): the register file, pc, the reset/halt flag, the cycle counter and 64 KiB of memory. R43, R46 to R48: no
condition codes, no other register file, no hidden state. Also the machine's ways to stop, and `State.reset`. -/

namespace Sys2Proof.Machine

open Host (Cell)

/-- Memory (rule R60): the bytes that have been written, as (address, byte) pairs. An unlisted address holds no
value: nothing has written it and a read of it is a fault of the model (rule R68; log entry 1). -/
abbrev Memory := List Cell

/-- The canonical form of a memory: addresses strictly rising and each below 2^16 (rule R60). An unlisted address
reads as no byte at all, so no entry can equal it. -/
def Memory.wf : Memory → Bool
  | [] => true
  | [(a, _)] => decide (a < 65536)
  | (a, _) :: (a', b') :: rest => decide (a < a') && Memory.wf ((a', b') :: rest)

/-- The whole architectural state of the engine (rules R30, R36, R41, R44, R60). -/
structure State where
  /-- `x[0]` to `x[31]` (R30). Read through `readReg`, which gives 0 for `x[0]` (R31). -/
  regs : Vector Word 32
  /-- the program counter, a byte address (R36) -/
  pc : Word
  /-- the reset/halt flag: running (false) or halted (true) (R41) -/
  halted : Bool
  /-- the cycle counter (R44) -/
  cycle : Word
  /-- the written bytes of memory (R60) -/
  mem : Memory
deriving DecidableEq, Repr

/-- The ways a tick fails. In each the tick changes nothing (rules R15, R147). -/
inductive Fault where
  /-- `INVALID_INSTRUCTION` (R147), raised by decode, carrying the fetched word: its format field selects no
  layout or `OPCODE_MAP` gives none. The spec's own failure: safe. -/
  | invalidInstruction (w : InstrWord)
  /-- `INVALID_ADDRESS` (R66, R67), raised by fetch, loads and stores under `MISALIGNED_FETCH = fault` or
  `EDGE_WRAP = fault` only, carrying the address. The spec's own failure: safe. -/
  | invalidAddress (a : Word)
  /-- A fetch or load reads the byte at `a`, which nothing has written (R68: "a fault of the model"). Safe: the
  hardware goes on with some byte. Log entry 1. -/
  | unwrittenByte (a : Word)
deriving DecidableEq, Repr

/-- The refusals. No meaning of this model answers with one. -/
inductive Refusal where
  /-- An instruction without a meaning, raised by `exec`'s arm; every arm has one. Safe. -/
  | notModelled (mnemonic : String)
deriving DecidableEq, Repr

/-- The answer of a meaning or a step. -/
abbrev Answer := Host.Outcome State Fault Refusal

/-- What `create` leaves unspecified (rule R342): every piece of state but memory, all of which is unwritten. A
transaction on a fresh engine takes one of these as an argument. -/
structure PowerOn where
  regs : Vector Word 32
  pc : Word
  halted : Bool
  cycle : Word
deriving DecidableEq, Repr

/-- `create` (rules R153, R342): a fresh engine, nothing of it specified but that `x[0]` reads 0 (log entry 14). -/
def State.create (u : PowerOn) : State :=
  { regs := u.regs.set 0 0, pc := u.pc, halted := u.halted, cycle := u.cycle, mem := [] }

/-- The machine right after `assert_reset` of a fresh engine (rules R340, R343): pc at `RESET_VECTOR`, the flag set,
no byte of memory written. DESIGN CHOICE (log entry 2): `x[1]` to `x[31]` and `cycle`, for which the spec gives no
value, are 0. -/
def State.reset : State :=
  { regs := Vector.replicate 32 0
    pc := Config.default.resetVector
    halted := true
    cycle := 0
    mem := [] }

end Sys2Proof.Machine
end

