-- ==== Sys2Proof/Machine/Ops.lean ====
section
/-! DEFINITION. The named operations over registers and memory (00_scope.md R13, R14; 20_memory.md R60 to R67), the
fetch (40_engine.md R141), the effect of an operation and its commit (R144, R149), and the raising of a failure (R15).

The machine has no trap mechanism (60_exceptions.md R310): no vector, no saved pc, no handler mode, no return. Where
other machines take an exception this one ends the tick with a status and changes nothing; `raise` is that one
shared operation, and nothing stands beside it to return from it (R314). -/

namespace Sys2Proof.Machine

/-! ### Registers -/

/-- `x[i]` of rule R13: 0 for register 0 in every state (rule R31). -/
def State.readReg (s : State) (i : RegIdx) : Word :=
  if i = 0 then 0 else s.regs[i.toNat]

/-- `x[i] <- v` of rule R13: nothing for register 0 (rule R31). -/
def State.writeReg (s : State) (i : RegIdx) (v : Word) : State :=
  if i = 0 then s else { s with regs := s.regs.set i.toNat v }

/-- `pc <- target` (rule R13). -/
def State.setPc (s : State) (v : Word) : State := { s with pc := v }

/-- A write of the reset/halt flag (rule R41). -/
def State.setHalted (s : State) (b : Bool) : State := { s with halted := b }

/-- A write of the cycle counter (rule R44). -/
def State.setCycle (s : State) (v : Word) : State := { s with cycle := v }

/-- A new memory. -/
def State.setMem (s : State) (m : Memory) : State := { s with mem := m }

/-! ### Memory as a map from addresses to written bytes -/

/-- The byte at address `a`, `none` where nothing has written it (rules R61, R68). -/
def Memory.read : Memory → Nat → Option Byte
  | [], _ => none
  | (a', b) :: rest, a => if a' = a then some b else Memory.read rest a

/-- The memory with byte `b` at address `a` (rule R64), in canonical form. -/
def Memory.write : Memory → Nat → Byte → Memory
  | [], a, b => [(a, b)]
  | (a', b') :: rest, a, b =>
    if a < a' then (a, b) :: (a', b') :: rest
    else if a = a' then (a, b) :: rest
    else (a', b') :: Memory.write rest a b

/-! ### Memory accesses -/

/-- `a +' k`, the k-th byte after address `a`, under `EDGE_WRAP = wrap` (rule R67). -/
def addrAfter (a : Word) (k : Nat) : Word := a + BitVec.ofNat 16 k

/-- The check of rule R67 on an access of `n` bytes at `a`: under `EDGE_WRAP = fault` an access that runs past
0xFFFF raises InvalidAddress(a). -/
def edgeCheck (c : Config) (a : Word) (n : Nat) : Except Fault Unit :=
  match c.edgeWrap with
  | .wrap => .ok ()
  | .fault => if a.toNat + n ≤ 65536 then .ok () else .error (.invalidAddress a)

/-- `MemRead(a, 1)` (rule R61). -/
def readByte (m : Memory) (a : Word) : Except Fault Byte :=
  match Memory.read m a.toNat with
  | some b => .ok b
  | none => .error (.unwrittenByte a)

/-- `MemRead(a, 2)`, little-endian (rules R62, R65). -/
def readHalf (c : Config) (m : Memory) (a : Word) : Except Fault Word :=
  match edgeCheck c a 2 with
  | .error f => .error f
  | .ok _ =>
    match readByte m a, readByte m (addrAfter a 1) with
    | .ok b0, .ok b1 => .ok (b1 ++ b0)
    | .error f, _ => .error f
    | _, .error f => .error f

/-- `MemRead(a, 4)`, little-endian (rules R63, R65). -/
def readWord (c : Config) (m : Memory) (a : Word) : Except Fault InstrWord :=
  match edgeCheck c a 4 with
  | .error f => .error f
  | .ok _ =>
    match readByte m a, readByte m (addrAfter a 1), readByte m (addrAfter a 2), readByte m (addrAfter a 3) with
    | .ok b0, .ok b1, .ok b2, .ok b3 => .ok (wordOfBytes b0 b1 b2 b3)
    | .error f, _, _, _ => .error f
    | _, .error f, _, _ => .error f
    | _, _, .error f, _ => .error f
    | _, _, _, .error f => .error f

/-- `MemWrite(a, 1, v)` (rule R64). -/
def writeByte (m : Memory) (a : Word) (b : Byte) : Memory := Memory.write m a.toNat b

/-- `MemWrite(a, 2, v)`, low byte at the lower address, past 0xFFFF at 0x0000 (rules R64, R67). The `EDGE_WRAP`
check is made by the operation before anything is written (`storeHalf`). -/
def writeHalf (m : Memory) (a v : Word) : Memory :=
  writeByte (writeByte m a (v.extractLsb' 0 8)) (addrAfter a 1) (v.extractLsb' 8 8)

/-- The four bytes of a word at `a`, lowest address first: what a program load leaves for one instruction (R82). -/
def writeWord (m : Memory) (a : Word) (w : InstrWord) : Memory :=
  writeByte (writeByte (writeByte (writeByte m a (byteOf w 0)) (addrAfter a 1) (byteOf w 1))
    (addrAfter a 2) (byteOf w 2)) (addrAfter a 3) (byteOf w 3)

/-! ### Effects and their commit -/

/-- The effect of an operation (rule R149). -/
structure Effect where
  /-- a general-register write -/
  reg : Option (RegIdx × Word) := none
  /-- a halfword store -/
  mem : Option (Word × Word) := none
  /-- a taken jump's target -/
  jump : Option Word := none
  /-- stop -/
  halt : Bool := false
deriving DecidableEq, Repr

/-- What an operation's rule yields: its effect, or the failure it raises. -/
abbrev Effected := Except Fault Effect

/-- `e.reg <- (d, v)` and nothing else. -/
def writesReg (d : RegIdx) (v : Word) : Effected := .ok { reg := some (d, v) }

/-- `e.halt <- true` and nothing else. -/
def halts : Effected := .ok { halt := true }

/-- `raise` of rule R15: the tick ends with the failure and no state changes. This machine has no other way to
take an exception (rule R310). -/
def raise (f : Fault) : Answer := .fault f

/-- The register write of an effect (rule R144). -/
def State.applyReg (s : State) : Option (RegIdx × Word) → State
  | some (i, v) => s.writeReg i v
  | none => s

/-- The halfword store of an effect (rule R144). -/
def State.applyMem (s : State) : Option (Word × Word) → State
  | some (a, v) => s.setMem (writeHalf s.mem a v)
  | none => s

/-- The pc after a successful tick: a taken jump's target, else pc + 4 modulo 2^16 (rule R37). -/
def nextPc (pc : Word) : Option Word → Word
  | some target => target
  | none => pc + 4

/-- The commit of an effect, lines 5 to the end of rule R144: a `halt` sets the flag, leaves pc and counts a cycle
only under `HALT_COUNTS_CYCLE` (R146); any other effect writes its register, its halfword, pc and cycle (R145). -/
def commit (c : Config) (e : Effect) (s : State) : State :=
  if e.halt then
    (s.setHalted true).setCycle (if c.haltCountsCycle then s.cycle + 1 else s.cycle)
  else
    (((s.applyReg e.reg).applyMem e.mem).setPc (nextPc s.pc e.jump)).setCycle (s.cycle + 1)

/-- What becomes of an operation's result: its failure is raised (R15), its effect committed (R144). -/
def finish (c : Config) (r : Effected) (s : State) : Answer :=
  match r with
  | .error f => raise f
  | .ok e => .next (commit c e s)

/-! ### Fetch -/

/-- The fetch of rule R141: `MISALIGNED_FETCH` is checked first (R66), then `EDGE_WRAP` (R67), then the four bytes
at pc are read as a little-endian word (R63). -/
def fetch (c : Config) (s : State) : Except Fault InstrWord :=
  match c.misalignedFetch with
  | .fault =>
    if s.pc.toNat % 4 = 0 then readWord c s.mem s.pc else .error (.invalidAddress s.pc)
  | .execute => readWord c s.mem s.pc

/-- One tick around a meaning of instructions `ex` (rules R144, R312): a halted engine changes nothing (R151); else
fetch, decode and execute, each only if the one before it did not fail. -/
def tickAround (c : Config) (ex : Instr → State → Answer) (s : State) : Answer :=
  if s.halted then .next s
  else
    match fetch c s with
    | .error f => raise f
    | .ok w =>
      match decodeWith c w with
      | .error _ => raise (.invalidInstruction w)
      | .ok i => ex i s

end Sys2Proof.Machine
end

