-- ==== Sys2Proof/Machine/Operands.lean ====
section
/-! DEFINITION. The operand forms: the two addressing modes of loads and stores (45_loadstore.md), the load and store
themselves, the link value (46_jump.md R284), the conditional jump-and-link shared by the four jumps (R285), and the three
shift functions (43_shift.md R220). A register operand is `State.readReg` and an immediate operand is the 16-bit
field as it stands (30_encoding.md R100). -/

namespace Sys2Proof.Machine

/-- Base plus immediate: `x[s1] + imm` modulo 2^16 (rule R73). -/
def eaImm (s : State) (s1 : RegIdx) (imm : Word) : Word := s.readReg s1 + imm

/-- Base plus index register: `x[s1] + x[s2]` modulo 2^16 (rule R73). -/
def eaIndex (s : State) (s1 s2 : RegIdx) : Word := s.readReg s1 + s.readReg s2

/-- A halfword load of `x[d]` from `ea` (rules R260, R262): the read is made for `d = 0` too. -/
def loadHalf (c : Config) (d : RegIdx) (ea : Word) (s : State) : Effected :=
  match readHalf c s.mem ea with
  | .error f => .error f
  | .ok v => writesReg d v

/-- A halfword store of `x[d]` at `ea` (rules R261, R263), after the `EDGE_WRAP` check (R67, R312 step 5). -/
def storeHalf (c : Config) (d : RegIdx) (ea : Word) (s : State) : Effected :=
  match edgeCheck c ea 2 with
  | .error f => .error f
  | .ok _ => .ok { mem := some (ea, s.readReg d) }

/-- The link value: the address of the instruction after the jump, modulo 2^16 (rule R284). -/
def linkValue (s : State) : Word := s.pc + 4

/-- The conditional jump-and-link of rule R285: link and jump together, or neither. -/
def jumpAndLink (taken : Bool) (d : RegIdx) (target : Word) (s : State) : Effected :=
  .ok (if taken then { reg := some (d, linkValue s), jump := some target } else { })

/-! ### The shift functions of rule R220 -/

/-- `SHL(v, n)`. -/
def shl (v : Word) (n : Nat) : Word := if n < 16 then v <<< n else 0

/-- `SHR_L(v, n)`, zeros in. -/
def shrL (v : Word) (n : Nat) : Word := if n < 16 then v >>> n else 0

/-- `SHR_A(v, n)`: the 16-bit pattern of floor(s(v) / 2^min(n, 15)). -/
def shrA (v : Word) (n : Nat) : Word := BitVec.ofInt 16 (v.toInt / 2 ^ (min n 15))

/-- The shift function of each kind. -/
def shiftFull : ShiftKind → Word → Nat → Word
  | .left, v, n => shl v n
  | .rightLogical, v, n => shrL v n
  | .rightArithmetic, v, n => shrA v n

/-- A shift of `v` by the whole 16-bit amount operand, read as `u(amount)`, under `SHIFT_AMOUNT_RULE` (R220). -/
def shift (c : Config) (k : ShiftKind) (v amount : Word) : Word :=
  match c.shiftAmount with
  | .full => shiftFull k v amount.toNat
  | .mod16 => shiftFull k v (amount.toNat % 16)
  | .draw => if amount.toNat < 16 then shiftFull k v amount.toNat else Config.shiftDraw k v amount

end Sys2Proof.Machine
end

