-- ==== Sys2Proof/Machine/Flags.lean ====
section
/-! DEFINITION. The machine has no flags (10_state.md R43): no instruction writes one and none reads one. What
other machines keep in flags is here a 0/1 value in a general register: the relations of 44_compare.md and the tests of a
condition register against its comparand (46_jump.md). -/

namespace Sys2Proof.Machine

/-- Signed less-than, two's complement (rules R12, R240). -/
def ltSigned (a b : Word) : Bool := decide (a.toInt < b.toInt)

/-- Unsigned less-than (rule R241). -/
def ltUnsigned (a b : Word) : Bool := decide (a.toNat < b.toNat)

/-- The comparand 0: the condition register is exactly 0x0000 (rules R280, R282). -/
def isZero (v : Word) : Bool := decide (v = 0)

/-- The comparand 1: the condition register is exactly 0x0001 (rules R281, R283). -/
def isOne (v : Word) : Bool := decide (v = 1)

end Sys2Proof.Machine
end

