-- ==== Sys2Proof/Machine/Arithmetic.lean ====
section
/-! DEFINITION. 41_arithmetic.md R180 to R182. Each operation has its effect (40_engine.md R149) for any parameters and its
meaning, which commits that effect under the defaults. No operation here raises anything of its own. -/

namespace Sys2Proof.Machine

/-- `x[d] <- x[s1] + x[s2]`, modulo 2^16 (rule R180) -/
def addEffect (_c : Config) (d s1 s2 : RegIdx) (s : State) : Effected :=
  writesReg d (s.readReg s1 + s.readReg s2)

/-- The meaning of `add`: rule R180 under the default parameters. -/
def execAdd (d s1 s2 : RegIdx) (s : State) : Host.Outcome State Fault Refusal :=
  finish Config.default (addEffect Config.default d s1 s2 s) s

/-- `x[d] <- x[s1] - x[s2]`, modulo 2^16 (rule R181) -/
def subEffect (_c : Config) (d s1 s2 : RegIdx) (s : State) : Effected :=
  writesReg d (s.readReg s1 - s.readReg s2)

/-- The meaning of `sub`: rule R181 under the default parameters. -/
def execSub (d s1 s2 : RegIdx) (s : State) : Host.Outcome State Fault Refusal :=
  finish Config.default (subEffect Config.default d s1 s2 s) s

/-- `x[d] <- x[s1] + imm`, modulo 2^16 (rule R182) -/
def addiEffect (_c : Config) (d s1 : RegIdx) (imm : Word) (s : State) : Effected :=
  writesReg d (s.readReg s1 + imm)

/-- The meaning of `addi`: rule R182 under the default parameters. -/
def execAddi (d s1 : RegIdx) (imm : Word) (s : State) : Host.Outcome State Fault Refusal :=
  finish Config.default (addiEffect Config.default d s1 imm s) s

end Sys2Proof.Machine
end

