-- ==== Sys2Proof/Machine/Logic.lean ====
section
/-! DEFINITION. 42_logic.md R200 to R205. Each operation has its effect (40_engine.md R149) for any parameters and its
meaning, which commits that effect under the defaults. No operation here raises anything of its own. -/

namespace Sys2Proof.Machine

/-- `x[d] <- x[s1] & x[s2]` (rule R200) -/
def andEffect (_c : Config) (d s1 s2 : RegIdx) (s : State) : Effected :=
  writesReg d (s.readReg s1 &&& s.readReg s2)

/-- The meaning of `and`: rule R200 under the default parameters. -/
def execAnd (d s1 s2 : RegIdx) (s : State) : Host.Outcome State Fault Refusal :=
  finish Config.default (andEffect Config.default d s1 s2 s) s

/-- `x[d] <- x[s1] | x[s2]` (rule R201) -/
def orEffect (_c : Config) (d s1 s2 : RegIdx) (s : State) : Effected :=
  writesReg d (s.readReg s1 ||| s.readReg s2)

/-- The meaning of `or`: rule R201 under the default parameters. -/
def execOr (d s1 s2 : RegIdx) (s : State) : Host.Outcome State Fault Refusal :=
  finish Config.default (orEffect Config.default d s1 s2 s) s

/-- `x[d] <- x[s1] ^ x[s2]` (rule R202) -/
def xorEffect (_c : Config) (d s1 s2 : RegIdx) (s : State) : Effected :=
  writesReg d (s.readReg s1 ^^^ s.readReg s2)

/-- The meaning of `xor`: rule R202 under the default parameters. -/
def execXor (d s1 s2 : RegIdx) (s : State) : Host.Outcome State Fault Refusal :=
  finish Config.default (xorEffect Config.default d s1 s2 s) s

/-- `x[d] <- x[s1] & imm` (rule R203) -/
def andiEffect (_c : Config) (d s1 : RegIdx) (imm : Word) (s : State) : Effected :=
  writesReg d (s.readReg s1 &&& imm)

/-- The meaning of `andi`: rule R203 under the default parameters. -/
def execAndi (d s1 : RegIdx) (imm : Word) (s : State) : Host.Outcome State Fault Refusal :=
  finish Config.default (andiEffect Config.default d s1 imm s) s

/-- `x[d] <- x[s1] | imm` (rule R204) -/
def oriEffect (_c : Config) (d s1 : RegIdx) (imm : Word) (s : State) : Effected :=
  writesReg d (s.readReg s1 ||| imm)

/-- The meaning of `ori`: rule R204 under the default parameters. -/
def execOri (d s1 : RegIdx) (imm : Word) (s : State) : Host.Outcome State Fault Refusal :=
  finish Config.default (oriEffect Config.default d s1 imm s) s

/-- `x[d] <- x[s1] ^ imm` (rule R205) -/
def xoriEffect (_c : Config) (d s1 : RegIdx) (imm : Word) (s : State) : Effected :=
  writesReg d (s.readReg s1 ^^^ imm)

/-- The meaning of `xori`: rule R205 under the default parameters. -/
def execXori (d s1 : RegIdx) (imm : Word) (s : State) : Host.Outcome State Fault Refusal :=
  finish Config.default (xoriEffect Config.default d s1 imm s) s

end Sys2Proof.Machine
end

