-- ==== Sys2Proof/Machine/Shift.lean ====
section
/-! DEFINITION. 43_shift.md R220 to R226. Each operation has its effect (40_engine.md R149) for any parameters and its
meaning, which commits that effect under the defaults. No operation here raises anything of its own. -/

namespace Sys2Proof.Machine

/-- `x[d] <- SHL(x[s1], u(x[s2]))` (rule R221) -/
def sllEffect (c : Config) (d s1 s2 : RegIdx) (s : State) : Effected :=
  writesReg d (shift c .left (s.readReg s1) (s.readReg s2))

/-- The meaning of `sll`: rule R221 under the default parameters. -/
def execSll (d s1 s2 : RegIdx) (s : State) : Host.Outcome State Fault Refusal :=
  finish Config.default (sllEffect Config.default d s1 s2 s) s

/-- `x[d] <- SHR_L(x[s1], u(x[s2]))` (rule R222) -/
def srlEffect (c : Config) (d s1 s2 : RegIdx) (s : State) : Effected :=
  writesReg d (shift c .rightLogical (s.readReg s1) (s.readReg s2))

/-- The meaning of `srl`: rule R222 under the default parameters. -/
def execSrl (d s1 s2 : RegIdx) (s : State) : Host.Outcome State Fault Refusal :=
  finish Config.default (srlEffect Config.default d s1 s2 s) s

/-- `x[d] <- SHR_A(x[s1], u(x[s2]))` (rule R223) -/
def sraEffect (c : Config) (d s1 s2 : RegIdx) (s : State) : Effected :=
  writesReg d (shift c .rightArithmetic (s.readReg s1) (s.readReg s2))

/-- The meaning of `sra`: rule R223 under the default parameters. -/
def execSra (d s1 s2 : RegIdx) (s : State) : Host.Outcome State Fault Refusal :=
  finish Config.default (sraEffect Config.default d s1 s2 s) s

/-- `x[d] <- SHL(x[s1], u(imm))` (rule R224) -/
def slliEffect (c : Config) (d s1 : RegIdx) (imm : Word) (s : State) : Effected :=
  writesReg d (shift c .left (s.readReg s1) imm)

/-- The meaning of `slli`: rule R224 under the default parameters. -/
def execSlli (d s1 : RegIdx) (imm : Word) (s : State) : Host.Outcome State Fault Refusal :=
  finish Config.default (slliEffect Config.default d s1 imm s) s

/-- `x[d] <- SHR_L(x[s1], u(imm))` (rule R225) -/
def srliEffect (c : Config) (d s1 : RegIdx) (imm : Word) (s : State) : Effected :=
  writesReg d (shift c .rightLogical (s.readReg s1) imm)

/-- The meaning of `srli`: rule R225 under the default parameters. -/
def execSrli (d s1 : RegIdx) (imm : Word) (s : State) : Host.Outcome State Fault Refusal :=
  finish Config.default (srliEffect Config.default d s1 imm s) s

/-- `x[d] <- SHR_A(x[s1], u(imm))` (rule R226) -/
def sraiEffect (c : Config) (d s1 : RegIdx) (imm : Word) (s : State) : Effected :=
  writesReg d (shift c .rightArithmetic (s.readReg s1) imm)

/-- The meaning of `srai`: rule R226 under the default parameters. -/
def execSrai (d s1 : RegIdx) (imm : Word) (s : State) : Host.Outcome State Fault Refusal :=
  finish Config.default (sraiEffect Config.default d s1 imm s) s

end Sys2Proof.Machine
end

