-- ==== Sys2Proof/Machine/Compare.lean ====
section
/-! DEFINITION. 44_compare.md R240 to R243. Each operation has its effect (40_engine.md R149) for any parameters and its
meaning, which commits that effect under the defaults. No operation here raises anything of its own. -/

namespace Sys2Proof.Machine

/-- `x[d] <- bool01(s(x[s1]) < s(x[s2]))` (rule R240) -/
def sltEffect (_c : Config) (d s1 s2 : RegIdx) (s : State) : Effected :=
  writesReg d (bool01 (ltSigned (s.readReg s1) (s.readReg s2)))

/-- The meaning of `slt`: rule R240 under the default parameters. -/
def execSlt (d s1 s2 : RegIdx) (s : State) : Host.Outcome State Fault Refusal :=
  finish Config.default (sltEffect Config.default d s1 s2 s) s

/-- `x[d] <- bool01(u(x[s1]) < u(x[s2]))` (rule R241) -/
def sltuEffect (_c : Config) (d s1 s2 : RegIdx) (s : State) : Effected :=
  writesReg d (bool01 (ltUnsigned (s.readReg s1) (s.readReg s2)))

/-- The meaning of `sltu`: rule R241 under the default parameters. -/
def execSltu (d s1 s2 : RegIdx) (s : State) : Host.Outcome State Fault Refusal :=
  finish Config.default (sltuEffect Config.default d s1 s2 s) s

/-- `x[d] <- bool01(s(x[s1]) < s(imm))` (rule R242) -/
def sltiEffect (_c : Config) (d s1 : RegIdx) (imm : Word) (s : State) : Effected :=
  writesReg d (bool01 (ltSigned (s.readReg s1) imm))

/-- The meaning of `slti`: rule R242 under the default parameters. -/
def execSlti (d s1 : RegIdx) (imm : Word) (s : State) : Host.Outcome State Fault Refusal :=
  finish Config.default (sltiEffect Config.default d s1 imm s) s

/-- `x[d] <- bool01(u(x[s1]) < u(imm))` (rule R243) -/
def sltiuEffect (_c : Config) (d s1 : RegIdx) (imm : Word) (s : State) : Effected :=
  writesReg d (bool01 (ltUnsigned (s.readReg s1) imm))

/-- The meaning of `sltiu`: rule R243 under the default parameters. -/
def execSltiu (d s1 : RegIdx) (imm : Word) (s : State) : Host.Outcome State Fault Refusal :=
  finish Config.default (sltiuEffect Config.default d s1 imm s) s

end Sys2Proof.Machine
end

