-- ==== Sys2Proof/Machine/LoadStore.lean ====
section
/-! DEFINITION. 45_loadstore.md R260 to R263. Each operation has its effect (40_engine.md R149) for any
parameters and its meaning, which commits that effect under the defaults. Under `EDGE_WRAP = fault` an access at 0xFFFF
raises InvalidAddress (20_memory.md R67); a load of a byte nothing has written is a fault of the model (R68). -/

namespace Sys2Proof.Machine

/-- `x[d] <- MemRead(x[s1] + imm, 2)` (rule R260) -/
def lhEffect (c : Config) (d s1 : RegIdx) (imm : Word) (s : State) : Effected :=
  loadHalf c d (eaImm s s1 imm) s

/-- The meaning of `lh`: rule R260 under the default parameters. -/
def execLh (d s1 : RegIdx) (imm : Word) (s : State) : Host.Outcome State Fault Refusal :=
  finish Config.default (lhEffect Config.default d s1 imm s) s

/-- `MemWrite(x[s1] + imm, 2, x[d])`; `x[d]` is data and is not written (rule R261) -/
def shEffect (c : Config) (d s1 : RegIdx) (imm : Word) (s : State) : Effected :=
  storeHalf c d (eaImm s s1 imm) s

/-- The meaning of `sh`: rule R261 under the default parameters. -/
def execSh (d s1 : RegIdx) (imm : Word) (s : State) : Host.Outcome State Fault Refusal :=
  finish Config.default (shEffect Config.default d s1 imm s) s

/-- `x[d] <- MemRead(x[s1] + x[s2], 2)` (rule R262) -/
def lhxEffect (c : Config) (d s1 s2 : RegIdx) (s : State) : Effected :=
  loadHalf c d (eaIndex s s1 s2) s

/-- The meaning of `lhx`: rule R262 under the default parameters. -/
def execLhx (d s1 s2 : RegIdx) (s : State) : Host.Outcome State Fault Refusal :=
  finish Config.default (lhxEffect Config.default d s1 s2 s) s

/-- `MemWrite(x[s1] + x[s2], 2, x[d])`; `x[d]` is data and is not written (rule R263) -/
def shxEffect (c : Config) (d s1 s2 : RegIdx) (s : State) : Effected :=
  storeHalf c d (eaIndex s s1 s2) s

/-- The meaning of `shx`: rule R263 under the default parameters. -/
def execShx (d s1 s2 : RegIdx) (s : State) : Host.Outcome State Fault Refusal :=
  finish Config.default (shxEffect Config.default d s1 s2 s) s

end Sys2Proof.Machine
end

