-- ==== Sys2Proof/Machine/Jump.lean ====
section
/-! DEFINITION. 46_jump.md R280 to R287. Each operation has its effect (40_engine.md R149) for any parameters and
its meaning, which commits that effect under the defaults. A target is absolute and is neither masked nor checked (R286);
there is no delay slot (R287). -/

namespace Sys2Proof.Machine

/-- if `x[s1] = 0` then `x[d] <- pc + 4` and jump to `imm` (rule R280) -/
def jlzEffect (_c : Config) (d s1 : RegIdx) (imm : Word) (s : State) : Effected :=
  jumpAndLink (isZero (s.readReg s1)) d imm s

/-- The meaning of `jlz`: rule R280 under the default parameters. -/
def execJlz (d s1 : RegIdx) (imm : Word) (s : State) : Host.Outcome State Fault Refusal :=
  finish Config.default (jlzEffect Config.default d s1 imm s) s

/-- if `x[s1] = 1` then `x[d] <- pc + 4` and jump to `imm` (rule R281) -/
def jloEffect (_c : Config) (d s1 : RegIdx) (imm : Word) (s : State) : Effected :=
  jumpAndLink (isOne (s.readReg s1)) d imm s

/-- The meaning of `jlo`: rule R281 under the default parameters. -/
def execJlo (d s1 : RegIdx) (imm : Word) (s : State) : Host.Outcome State Fault Refusal :=
  finish Config.default (jloEffect Config.default d s1 imm s) s

/-- if `x[s1] = 0` then `x[d] <- pc + 4` and jump to `x[s2]` (rule R282) -/
def jlrzEffect (_c : Config) (d s1 s2 : RegIdx) (s : State) : Effected :=
  jumpAndLink (isZero (s.readReg s1)) d (s.readReg s2) s

/-- The meaning of `jlrz`: rule R282 under the default parameters. -/
def execJlrz (d s1 s2 : RegIdx) (s : State) : Host.Outcome State Fault Refusal :=
  finish Config.default (jlrzEffect Config.default d s1 s2 s) s

/-- if `x[s1] = 1` then `x[d] <- pc + 4` and jump to `x[s2]` (rule R283) -/
def jlroEffect (_c : Config) (d s1 s2 : RegIdx) (s : State) : Effected :=
  jumpAndLink (isOne (s.readReg s1)) d (s.readReg s2) s

/-- The meaning of `jlro`: rule R283 under the default parameters. -/
def execJlro (d s1 s2 : RegIdx) (s : State) : Host.Outcome State Fault Refusal :=
  finish Config.default (jlroEffect Config.default d s1 s2 s) s

end Sys2Proof.Machine
end

