-- ==== Sys2Proof/Machine/Halt.lean ====
section
/-! DEFINITION. 47_halt.md R300, the only system instruction (R301). The flag is set and pc, the registers and memory
are left (40_engine.md R146); the immediate is ignored (30_encoding.md R102). -/

namespace Sys2Proof.Machine

/-- `e.halt <- true` (rule R300) -/
def haltEffect (_c : Config) (_imm : Word) (_s : State) : Effected :=
  halts

/-- The meaning of `halt`: rule R300 under the default parameters. -/
def execHalt (imm : Word) (s : State) : Host.Outcome State Fault Refusal :=
  finish Config.default (haltEffect Config.default imm s) s

end Sys2Proof.Machine
end

