-- ==== Sys2Proof/Machine/Dispatch.lean ====
section
/-! DEFINITION. The dispatch of 40_engine.md R143: each instruction to the meaning of its operation (table of R148),
under the default parameters. -/

namespace Sys2Proof.Machine

def exec (i : Instr) (s : State) : Host.Outcome State Fault Refusal :=
  match i with
  | .add d s1 s2 => Sys2Proof.Machine.execAdd d s1 s2 s
  | .sub d s1 s2 => Sys2Proof.Machine.execSub d s1 s2 s
  | .and d s1 s2 => Sys2Proof.Machine.execAnd d s1 s2 s
  | .or d s1 s2 => Sys2Proof.Machine.execOr d s1 s2 s
  | .xor d s1 s2 => Sys2Proof.Machine.execXor d s1 s2 s
  | .sll d s1 s2 => Sys2Proof.Machine.execSll d s1 s2 s
  | .srl d s1 s2 => Sys2Proof.Machine.execSrl d s1 s2 s
  | .sra d s1 s2 => Sys2Proof.Machine.execSra d s1 s2 s
  | .slt d s1 s2 => Sys2Proof.Machine.execSlt d s1 s2 s
  | .sltu d s1 s2 => Sys2Proof.Machine.execSltu d s1 s2 s
  | .lhx d s1 s2 => Sys2Proof.Machine.execLhx d s1 s2 s
  | .shx d s1 s2 => Sys2Proof.Machine.execShx d s1 s2 s
  | .jlrz d s1 s2 => Sys2Proof.Machine.execJlrz d s1 s2 s
  | .jlro d s1 s2 => Sys2Proof.Machine.execJlro d s1 s2 s
  | .addi d s1 imm => Sys2Proof.Machine.execAddi d s1 imm s
  | .andi d s1 imm => Sys2Proof.Machine.execAndi d s1 imm s
  | .ori d s1 imm => Sys2Proof.Machine.execOri d s1 imm s
  | .xori d s1 imm => Sys2Proof.Machine.execXori d s1 imm s
  | .slli d s1 imm => Sys2Proof.Machine.execSlli d s1 imm s
  | .srli d s1 imm => Sys2Proof.Machine.execSrli d s1 imm s
  | .srai d s1 imm => Sys2Proof.Machine.execSrai d s1 imm s
  | .slti d s1 imm => Sys2Proof.Machine.execSlti d s1 imm s
  | .sltiu d s1 imm => Sys2Proof.Machine.execSltiu d s1 imm s
  | .lh d s1 imm => Sys2Proof.Machine.execLh d s1 imm s
  | .sh d s1 imm => Sys2Proof.Machine.execSh d s1 imm s
  | .jlz d s1 imm => Sys2Proof.Machine.execJlz d s1 imm s
  | .jlo d s1 imm => Sys2Proof.Machine.execJlo d s1 imm s
  | .halt imm => Sys2Proof.Machine.execHalt imm s

end Sys2Proof.Machine
end

