-- ==== Sys2Proof/Machine/Step.lean ====
section
/-! DEFINITION. One step is one tick (40_engine.md R144, 70_reset_and_hazards.md R350) under the default parameters, with
`exec` as the meaning of instructions; and the placing of one instruction where the next step fetches. -/

namespace Sys2Proof.Machine

/-- One tick. A halted engine answers `next` with its state unchanged (rule R151). The tick's status is read off
the answer (`tickStatus` in Boundary.lean). -/
def step (s : State) : Host.Outcome State Fault Refusal := tickAround Config.default exec s

/-- The state whose very next step runs the table's word `w`: the word's four bytes stand at pc, as a program load
leaves them (rule R82), and the flag is clear, as `deassert_reset` leaves it (rule R341). Log entry 3. -/
def State.withFetchWord (s : State) (nbits w : Nat) : State :=
  (s.setMem (writeWord s.mem s.pc (tableWord nbits w))).setHalted false

end Sys2Proof.Machine
end

