-- ==== Sys2Proof/Machine/Assembler.lean ====
section
/-! DEFINITION. How programs are spelled (30_encoding.md section 6, R108 to R116; register names, 10_state.md R33). The
engine executes none of this: it sees only the bytes (R116). Every stage fails whole, with no partial output (R116).

Log entry 9 names what the source does not give: the letters of an identifier, when it is cut to its maximum length, which
identifiers may name a label, what a directive's operand may be, and an `.org` that goes backwards. `assembleWith` takes
`FORMAT_CODE` and `OPCODE_MAP` as an argument (rule R10); `assemble` is the assembler at their defaults (log entry 6). -/

namespace Sys2Proof.Machine

/-! ### Names -/

/-- The ABI names in the order of rule R33: the index of a name is its position (D5). -/
def abiNames : List String :=
  ["zero", "ra", "sp", "a0", "a1", "a2", "a3", "a4", "a5", "a6", "a7", "t0", "t1", "t2", "t3", "t4",
    "t5", "t6", "t7", "s0", "s1", "s2", "s3", "s4", "s5", "s6", "s7", "s8", "s9", "s10", "s11", "s12"]

/-- The raw names `r0` to `r31` (rule R33). -/
def rawNames : List String :=
  ["r0", "r1", "r2", "r3", "r4", "r5", "r6", "r7", "r8", "r9", "r10", "r11", "r12", "r13", "r14", "r15",
    "r16", "r17", "r18", "r19", "r20", "r21", "r22", "r23", "r24", "r25", "r26", "r27", "r28", "r29", "r30", "r31"]

/-- The register a name stands for: both kinds of name alias one index (rules R33, R110). -/
def registerOfName (name : String) : Option RegIdx :=
  if name ∈ abiNames then some (BitVec.ofNat 5 (abiNames.idxOf name))
  else if name ∈ rawNames then some (BitVec.ofNat 5 (rawNames.idxOf name))
  else none

/-- The name a disassembler spells: the ABI name (rule R110). -/
def nameOfRegister (i : RegIdx) : String := abiNames.getD i.toNat ""

/-- The mnemonics of the DSS operations (rule R104). -/
def dssNames : List (String × DssOp) :=
  [("add", .add), ("sub", .sub), ("and", .and), ("or", .or), ("xor", .xor), ("sll", .sll), ("srl", .srl),
    ("sra", .sra), ("slt", .slt), ("sltu", .sltu), ("lhx", .lhx), ("shx", .shx), ("jlrz", .jlrz), ("jlro", .jlro)]

/-- The mnemonics of the DSI operations (rule R104). -/
def dsiNames : List (String × DsiOp) :=
  [("addi", .addi), ("andi", .andi), ("ori", .ori), ("xori", .xori), ("slli", .slli), ("srli", .srli),
    ("srai", .srai), ("slti", .slti), ("sltiu", .sltiu), ("lh", .lh), ("sh", .sh), ("jlz", .jlz), ("jlo", .jlo)]

/-! ### Failures -/

/-- Why assembly failed (rule R116). -/
inductive AsmError where
  /-- a character matches no recogniser -/
  | badCharacter (ch : Char)
  /-- a run of letters and digits that starts with a digit is no literal -/
  | badNumber (text : String)
  /-- a token sequence matches no skeleton, or an operand is not of the kind its place needs -/
  | noSkeleton
  /-- a mnemonic is in no table (R116, I2) -/
  | unknownMnemonic (name : String)
  /-- an operation has no opcode under `OPCODE_MAP`: the table lookup fails during encoding (R116, I2) -/
  | noOpcode (i : Instr)
  /-- a label reference has no definition: `ENCODER_STATUS_UNKNOWN_LABEL` (R112) -/
  | unknownLabel (name : String)
  /-- a label is defined twice (R116, I1) -/
  | duplicateLabel (name : String)
  /-- a literal above 0xFFFF under `ASM_LITERAL_OVERFLOW = reject` (R111) -/
  | literalOverflow (n : Nat)
  /-- a directive where directives are not accepted (R114, I9), or an unknown one -/
  | noDirective
  /-- an `.org` to an address already passed -/
  | orgBackwards (n : Nat)
deriving DecidableEq, Repr

/-! ### Lexing one line -/

/-- The tokens of the grammar (rules R108, R109, R111). -/
inductive Token where
  | comma | colon | dot
  | number (n : Nat)
  | ident (name : String)
deriving DecidableEq, Repr

/-- The value of a digit in either case, `none` for a character that is no hexadecimal digit. -/
def digitValue (ch : Char) : Option Nat :=
  if ch.isDigit then some (ch.toNat - 48)
  else if 97 ≤ ch.toNat ∧ ch.toNat ≤ 102 then some (ch.toNat - 87)
  else if 65 ≤ ch.toNat ∧ ch.toNat ≤ 70 then some (ch.toNat - 55)
  else none

/-- The number that digits spell in a base, added to what the digits before them spell. -/
def numberOfDigits (base : Nat) : Nat → List Char → Option Nat
  | acc, [] => some acc
  | acc, ch :: rest =>
    match digitValue ch with
    | some v => if v < base then numberOfDigits base (acc * base + v) rest else none
    | none => none

/-- A numeric literal: decimal, or hexadecimal after `0x` or `0X` (rule R111). There is no minus sign. -/
def literalOfWord : List Char → Option Nat
  | '0' :: 'x' :: d :: rest => numberOfDigits 16 0 (d :: rest)
  | '0' :: 'X' :: d :: rest => numberOfDigits 16 0 (d :: rest)
  | d :: rest => numberOfDigits 10 0 (d :: rest)
  | [] => none

/-- The token of a maximal run of letters, digits and underscores: a literal if it starts with a digit, else an
identifier, cut to the maximum length (rules R111, R116). -/
def tokenOfWord (p : AsmParams) (word : List Char) : Except AsmError Token :=
  match word with
  | [] => .error .noSkeleton
  | ch :: _ =>
    if ch.isDigit then
      match literalOfWord word with
      | some n => .ok (.number n)
      | none => .error (.badNumber (String.ofList word))
    else .ok (.ident (String.ofList (word.take p.maxIdent)))

/-- A character of an identifier or a literal (log entry 9). -/
def isWordChar (ch : Char) : Bool := ch.isAlphanum || ch == '_'

/-- The tokens `rest` with the token of the word read so far, in reverse, before them. -/
def closeWord (p : AsmParams) (word : List Char) (rest : Except AsmError (List Token)) :
    Except AsmError (List Token) :=
  match word with
  | [] => rest
  | _ =>
    match tokenOfWord p word.reverse, rest with
    | .ok t, .ok ts => .ok (t :: ts)
    | .error e, _ => .error e
    | _, .error e => .error e

/-- One more token before `rest`. -/
def consToken (t : Token) (rest : Except AsmError (List Token)) : Except AsmError (List Token) :=
  match rest with
  | .ok ts => .ok (t :: ts)
  | .error e => .error e

/-- The tokens of a line; `word` is the reverse of the word being read. `;` begins a comment (rule R108). -/
def lexFrom (p : AsmParams) : List Char → List Char → Except AsmError (List Token)
  | word, [] => closeWord p word (.ok [])
  | word, ch :: rest =>
    if isWordChar ch then lexFrom p (ch :: word) rest
    else if ch = ';' then closeWord p word (.ok [])
    else if ch.isWhitespace then closeWord p word (lexFrom p [] rest)
    else if ch = ',' then closeWord p word (consToken .comma (lexFrom p [] rest))
    else if ch = ':' then closeWord p word (consToken .colon (lexFrom p [] rest))
    else if ch = '.' then closeWord p word (consToken .dot (lexFrom p [] rest))
    else .error (.badCharacter ch)

/-- The tokens of one line. -/
def lexLine (p : AsmParams) (line : List Char) : Except AsmError (List Token) := lexFrom p [] line

/-! ### Parsing one line -/

/-- A 16-bit operand: a literal, or a label reference (rules R109, R112). -/
inductive SymImm where
  | literal (n : Nat)
  | label (name : String)
deriving DecidableEq, Repr

/-- An instruction whose immediate may still be a label. -/
inductive SymInstr where
  | dss (op : DssOp) (d s1 s2 : RegIdx)
  | dsi (op : DsiOp) (d s1 : RegIdx) (imm : SymImm)
  | i (op : IOp) (imm : SymImm)
deriving DecidableEq, Repr

/-- An operand: a register if the identifier is a register name, else a literal or a generic identifier (R110). -/
inductive Operand where
  | reg (i : RegIdx)
  | imm (v : SymImm)
deriving DecidableEq, Repr

/-- A group of the parser (rules R17, R108): a label, an instruction or a directive. -/
inductive Group where
  | label (name : String)
  | instr (i : SymInstr)
  | org (n : Nat)
  | half (n : Nat)
deriving DecidableEq, Repr

/-- The kind of an operand token (rule R110). -/
def operandOfToken : Token → Except AsmError Operand
  | .number n => .ok (.imm (.literal n))
  | .ident name =>
    match registerOfName name with
    | some i => .ok (.reg i)
    | none => .ok (.imm (.label name))
  | _ => .error .noSkeleton

/-- The operands of an instruction, separated by commas (rule R108). -/
def parseOperands : List Token → Except AsmError (List Operand)
  | [] => .ok []
  | [t] =>
    match operandOfToken t with
    | .ok a => .ok [a]
    | .error e => .error e
  | t :: .comma :: t' :: rest =>
    match operandOfToken t, parseOperands (t' :: rest) with
    | .ok a, .ok l => .ok (a :: l)
    | .error e, _ => .error e
    | _, .error e => .error e
  | _ => .error .noSkeleton

/-- The pseudo-instructions of rule R113, each exactly one real instruction; no other is known (I7). -/
def expandPseudo (name : String) (args : List Operand) : Option SymInstr :=
  match name, args with
  | "li", [.reg rd, .imm v] => some (.dsi .ori rd 0 v)
  | "mv", [.reg rd, .reg rs] => some (.dss .or rd rs 0)
  | "nop", [] => some (.dss .or 0 0 0)
  | "j", [.imm v] => some (.dsi .jlz 0 0 v)
  | "jl", [.reg rd, .imm v] => some (.dsi .jlz rd 0 v)
  | "jlr", [.reg rd, .reg rs] => some (.dss .jlrz rd 0 rs)
  | "ret", [] => some (.dss .jlrz 0 0 1)
  | "call", [.imm v] => some (.dsi .jlz 1 0 v)
  | _, _ => none

/-- The names of the pseudo-instructions (rule R113). -/
def pseudoNames : List String := ["li", "mv", "nop", "j", "jl", "jlr", "ret", "call"]

/-- An instruction from its mnemonic and operands: the skeleton of its layout (R109), `halt` with no operand (R115),
or a pseudo-instruction (R113). -/
def parseInstr (name : String) (args : List Operand) : Except AsmError SymInstr :=
  match dssNames.lookup name with
  | some op =>
    match args with
    | [.reg d, .reg s1, .reg s2] => .ok (.dss op d s1 s2)
    | _ => .error .noSkeleton
  | none =>
    match dsiNames.lookup name with
    | some op =>
      match args with
      | [.reg d, .reg s1, .imm v] => .ok (.dsi op d s1 v)
      | _ => .error .noSkeleton
    | none =>
      if name = "halt" then
        match args with
        | [] => .ok (.i .halt (.literal 0))
        | _ => .error .noSkeleton
      else
        match expandPseudo name args with
        | some i => .ok i
        | none => .error (if name ∈ pseudoNames then .noSkeleton else .unknownMnemonic name)

/-- The groups of one line: a label definition, then an instruction or a directive, each of which may be missing
(rules R108, R114). DESIGN CHOICE (log entry 9): any identifier before `:` is a label definition, a register name or a
mnemonic too, and several definitions may stand on one line. A label with a register's name is never referred to, since
that name is a register as an operand (R110). DESIGN CHOICE (log entry 9): the operand of `.org` and of `.half` is a numeric
literal; an identifier there, a label too, matches no skeleton (rule R114 writes `<addr>` and `<value>` only). -/
def parseLine (p : AsmParams) : List Token → Except AsmError (List Group)
  | [] => .ok []
  | .ident name :: .colon :: rest =>
    match parseLine p rest with
    | .ok gs => .ok (.label name :: gs)
    | .error e => .error e
  | [.dot, .ident dir, .number n] =>
    if p.directives && dir = "org" then .ok [.org n]
    else if p.directives && dir = "half" then .ok [.half n]
    else .error .noDirective
  | .ident name :: rest =>
    match parseOperands rest with
    | .error e => .error e
    | .ok args =>
      match parseInstr name args with
      | .ok i => .ok [.instr i]
      | .error e => .error e
  | _ => .error .noSkeleton

/-- The groups of a source text, line by line. -/
def parseSource (p : AsmParams) : List (List Char) → Except AsmError (List Group)
  | [] => .ok []
  | line :: rest =>
    match lexLine p line with
    | .error e => .error e
    | .ok ts =>
      match parseLine p ts, parseSource p rest with
      | .ok gs, .ok gs' => .ok (gs ++ gs')
      | .error e, _ => .error e
      | _, .error e => .error e

/-! ### Labels and output -/

/-- A numeric literal as a 16-bit value, under `ASM_LITERAL_OVERFLOW` (rule R111). -/
def literalValue (p : AsmParams) (n : Nat) : Except AsmError Word :=
  if n < 65536 then .ok (BitVec.ofNat 16 n)
  else
    match p.literalOverflow with
    | .reject => .error (.literalOverflow n)
    | .truncate => .ok (BitVec.ofNat 16 n)

/-- The address of each label: the location counter at its definition, 4 on for an instruction, 2 for a `.half`, set
by `.org` (rule R112, D29). A label defined twice fails (R116). -/
def labelsFrom (p : AsmParams) : Nat → List Group → Except AsmError (List (String × Nat))
  | _, [] => .ok []
  | loc, .label name :: rest =>
    match labelsFrom p loc rest with
    | .error e => .error e
    | .ok table => if (table.lookup name).isSome then .error (.duplicateLabel name) else .ok ((name, loc) :: table)
  | loc, .instr _ :: rest => labelsFrom p (loc + 4) rest
  | loc, .half _ :: rest => labelsFrom p (loc + 2) rest
  | _, .org n :: rest =>
    match literalValue p n with
    | .error e => .error e
    | .ok v => labelsFrom p v.toNat rest

/-- The immediate of an instruction: a literal's value, or the absolute address of a label (rule R112). -/
def resolve (p : AsmParams) (table : List (String × Nat)) : SymImm → Except AsmError Word
  | .literal n => literalValue p n
  | .label name =>
    match table.lookup name with
    | some a => .ok (BitVec.ofNat 16 a)
    | none => .error (.unknownLabel name)

/-- The instruction with its label resolved. -/
def resolveInstr (p : AsmParams) (table : List (String × Nat)) : SymInstr → Except AsmError Instr
  | .dss op d s1 s2 => .ok (op.toInstr d s1 s2)
  | .dsi op d s1 v =>
    match resolve p table v with
    | .ok imm => .ok (op.toInstr d s1 imm)
    | .error e => .error e
  | .i op v =>
    match resolve p table v with
    | .ok imm => .ok (op.toInstr imm)
    | .error e => .error e

/-- Bytes before those of the rest. -/
def before (bytes : List Byte) (rest : Except AsmError (List Byte)) : Except AsmError (List Byte) :=
  match rest with
  | .ok l => .ok (bytes ++ l)
  | .error e => .error e

/-- The bytes of the groups from location `loc` on: instructions and `.half` values little-endian in program order,
`.org` padding with zero bytes (rule R114). An instruction is encoded under the parameters `c` (rules R10, R105). -/
def emitFrom (c : Config) (p : AsmParams) (table : List (String × Nat)) : Nat → List Group → Except AsmError (List Byte)
  | _, [] => .ok []
  | loc, .label _ :: rest => emitFrom c p table loc rest
  | loc, .instr i :: rest =>
    match resolveInstr p table i with
    | .error e => .error e
    | .ok r =>
      match encodeWith c r with
      | none => .error (.noOpcode r)
      | some w => before (bytesOf w) (emitFrom c p table (loc + 4) rest)
  | loc, .half n :: rest =>
    match literalValue p n with
    | .error e => .error e
    | .ok v => before [v.extractLsb' 0 8, v.extractLsb' 8 8] (emitFrom c p table (loc + 2) rest)
  | loc, .org n :: rest =>
    match literalValue p n with
    | .error e => .error e
    | .ok v =>
      if v.toNat < loc then .error (.orgBackwards n)
      else before (List.replicate (v.toNat - loc) 0) (emitFrom c p table v.toNat rest)

/-- The object bytes of a list of groups under the parameters `c`: labels first, then output, so that a reference resolves
the same way before and after its definition (rule R112). The location counter starts at `base` (D29: `RESET_VECTOR`). -/
def assembleGroupsWith (c : Config) (p : AsmParams) (base : Word) (gs : List Group) : Except AsmError (List Byte) :=
  match labelsFrom p base.toNat gs with
  | .error e => .error e
  | .ok table => emitFrom c p table base.toNat gs

/-- The object bytes of a list of groups at the default `FORMAT_CODE` and `OPCODE_MAP` (decisions D1 and D2; log entry 6). -/
def assembleGroups (p : AsmParams) (base : Word) (gs : List Group) : Except AsmError (List Byte) :=
  assembleGroupsWith Config.default p base gs

/-- The object bytes of a source text, given as its lines, under the parameters `c`: all of it, or one failure (rule
R116). -/
def assembleWith (c : Config) (p : AsmParams) (base : Word) (lines : List String) : Except AsmError (List Byte) :=
  match parseSource p (lines.map String.toList) with
  | .error e => .error e
  | .ok gs => assembleGroupsWith c p base gs

/-- The object bytes of a source text at the default `FORMAT_CODE` and `OPCODE_MAP` (decisions D1 and D2; log entry 6). -/
def assemble (p : AsmParams) (base : Word) (lines : List String) : Except AsmError (List Byte) :=
  assembleWith Config.default p base lines

end Sys2Proof.Machine
end

