-- ==== Sys2Proof/Machine/Engine.lean ====
section
/-! DEFINITION. The engine for any parameters (00_scope.md R10: "a model takes each as an argument"): the effect of each
instruction, its execution and the tick. `exec` and `step` are these at the defaults (Laws/Engine.lean proves it). -/

namespace Sys2Proof.Machine

/-- `effect(op, d, s1, s2, imm, pc)` of rule R144: the table of rule R148. -/
def effectOf (c : Config) (i : Instr) (s : State) : Effected :=
  match i with
  | .add d s1 s2 => addEffect c d s1 s2 s
  | .sub d s1 s2 => subEffect c d s1 s2 s
  | .and d s1 s2 => andEffect c d s1 s2 s
  | .or d s1 s2 => orEffect c d s1 s2 s
  | .xor d s1 s2 => xorEffect c d s1 s2 s
  | .sll d s1 s2 => sllEffect c d s1 s2 s
  | .srl d s1 s2 => srlEffect c d s1 s2 s
  | .sra d s1 s2 => sraEffect c d s1 s2 s
  | .slt d s1 s2 => sltEffect c d s1 s2 s
  | .sltu d s1 s2 => sltuEffect c d s1 s2 s
  | .lhx d s1 s2 => lhxEffect c d s1 s2 s
  | .shx d s1 s2 => shxEffect c d s1 s2 s
  | .jlrz d s1 s2 => jlrzEffect c d s1 s2 s
  | .jlro d s1 s2 => jlroEffect c d s1 s2 s
  | .addi d s1 imm => addiEffect c d s1 imm s
  | .andi d s1 imm => andiEffect c d s1 imm s
  | .ori d s1 imm => oriEffect c d s1 imm s
  | .xori d s1 imm => xoriEffect c d s1 imm s
  | .slli d s1 imm => slliEffect c d s1 imm s
  | .srli d s1 imm => srliEffect c d s1 imm s
  | .srai d s1 imm => sraiEffect c d s1 imm s
  | .slti d s1 imm => sltiEffect c d s1 imm s
  | .sltiu d s1 imm => sltiuEffect c d s1 imm s
  | .lh d s1 imm => lhEffect c d s1 imm s
  | .sh d s1 imm => shEffect c d s1 imm s
  | .jlz d s1 imm => jlzEffect c d s1 imm s
  | .jlo d s1 imm => jloEffect c d s1 imm s
  | .halt imm => haltEffect c imm s

/-- An instruction executed under the parameters `c`. -/
def execWith (c : Config) (i : Instr) (s : State) : Answer := finish c (effectOf c i s) s

/-- One tick under the parameters `c` (rule R144). -/
def tickWith (c : Config) (s : State) : Answer := tickAround c (execWith c) s

end Sys2Proof.Machine
end

