-- ==== Sys2Proof/Machine/Boundary.lean ====
section
/-! DEFINITION. The boundary between the engine and its host (40_engine.md R150, R153 to R156; 60_exceptions.md R311, R321;
70_reset_and_hazards.md R340 to R345): the statuses a tick returns, the reset transitions, the host's reads and writes, the
program load and the boot order. One transaction at a time acts on the state (R155). -/

namespace Sys2Proof.Machine

/-! ### Statuses -/

/-- The statuses of rule R150. The source gives no numeric codes (D26). -/
inductive Status where
  | success
  | halted
  | invalidInstruction (w : InstrWord)
  | invalidAddress (a : Word)
  /-- never returned by the engine or by `load` (rule R150) -/
  | invalidArgument
  /-- returned by the program load only (rule R150) -/
  | outOfMemory
deriving DecidableEq, Repr

/-- The status of a tick's answer (rule R150). A next state is halted exactly when the tick returned `HALTED`: a
successful tick leaves the flag clear. `none`: the model's own fault of rule R68, for which the spec gives no status. -/
def tickStatus : Answer → Option Status
  | .next s => some (if s.halted then .halted else .success)
  | .fault (.invalidInstruction w) => some (.invalidInstruction w)
  | .fault (.invalidAddress a) => some (.invalidAddress a)
  | .fault (.unwrittenByte _) => none
  | .refused _ => none

/-- The state after a tick: a tick that fails leaves the state as it was (rule R147). -/
def stateAfter (s : State) : Answer → State
  | .next t => t
  | .fault _ => s
  | .refused _ => s

/-- `tick`: the status and the state after it (rules R144, R150). -/
def tick (c : Config) (s : State) : Option Status × State :=
  (tickStatus (tickWith c s), stateAfter s (tickWith c s))

/-! ### Reset -/

/-- `assert_reset`: pc and the flag, and the cycle counter as `RESET_CYCLE` says (rules R45, R140, R340). -/
def assertReset (c : Config) (s : State) : State :=
  ((s.setPc c.resetVector).setHalted true).setCycle (c.resetCycle.getD s.cycle)

/-- `deassert_reset`: the flag only (rules R140, R341). -/
def deassertReset (s : State) : State := s.setHalted false

/-! ### Host inspection -/

/-- `destroy` (rule R153): the engine is gone and nothing of it is left. -/
def destroyEngine (_s : State) : Unit := ()

/-- `read_reg(i)` (rule R35). -/
def hostReadReg (i : RegIdx) (s : State) : Word := s.readReg i

/-- `read_pc` (rule R39). -/
def hostReadPc (s : State) : Word := s.pc

/-- `read_cycle` (rule R44). -/
def hostReadCycle (s : State) : Word := s.cycle

/-- `read_halted` (rule R153): the host reads the flag and changes it through reset only (D23). -/
def hostReadHalted (s : State) : Bool := s.halted

/-- `read_mem(a, 1)` (rule R81). -/
def hostReadByte (a : Word) (s : State) : Except Fault Byte := readByte s.mem a

/-- `read_mem(a, 2)` (rule R81). -/
def hostReadHalf (c : Config) (a : Word) (s : State) : Except Fault Word := readHalf c s.mem a

/-- The host's writes (rule R153). -/
inductive HostWrite where
  /-- `write_reg(i, v)` -/
  | reg (i : RegIdx) (v : Word)
  /-- `write_pc(v)` -/
  | pc (v : Word)
  /-- `write_cycle(v)` -/
  | cycle (v : Word)
  /-- `write_mem(a, 1, v)` -/
  | byte (a : Word) (b : Byte)
  /-- `write_mem(a, 2, v)` -/
  | half (a v : Word)
deriving DecidableEq, Repr

/-- A host write: discarded at register 0 (R35), unchecked at pc (R39), the instructions' own memory primitives (R81);
a halfword that `EDGE_WRAP = fault` refuses changes nothing (R67; log entry 13). -/
def applyWrite (c : Config) (w : HostWrite) (s : State) : State :=
  match w with
  | .reg i v => s.writeReg i v
  | .pc v => s.setPc v
  | .cycle v => s.setCycle v
  | .byte a b => s.setMem (writeByte s.mem a b)
  | .half a v =>
    match edgeCheck c a 2 with
    | .ok _ => s.setMem (writeHalf s.mem a v)
    | .error _ => s

/-! ### The program load -/

/-- Bytes stored one after another from address `a` on (rule R82). -/
def storeBytes : Memory → Nat → List Byte → Memory
  | m, _, [] => m
  | m, a, b :: rest => storeBytes (Memory.write m a b) (a + 1) rest

/-- The two cases in which the load fails (rule R82): the file is longer than the region, or it would run past 0xFFFF. -/
def loadFails (file : List Byte) (base : Word) (size : Nat) : Bool :=
  decide (size < file.length) || decide (65536 < base.toNat + file.length)

/-- `load(file, base, size)` (rule R82). After a failed load the contents of the region are any value (U6; log entry 8): `draw`
gives them, for every list of bytes, cut to the region; a byte it does not reach is as it was. -/
def load (draw : List Byte) (file : List Byte) (base : Word) (size : Nat) (s : State) : Status × State :=
  if loadFails file base size then
    (.outOfMemory, s.setMem (storeBytes s.mem base.toNat (draw.take (min size (65536 - base.toNat)))))
  else (.success, s.setMem (storeBytes s.mem base.toNat file))

/-! ### Transactions and the boot order -/

/-- The transactions of rule R153 that act on an engine's state; the others only read it. -/
inductive Transaction where
  | assertReset
  | deassertReset
  | tick
  | write (w : HostWrite)
  | load (draw file : List Byte) (base : Word) (size : Nat)
deriving DecidableEq, Repr

/-- The state after a transaction. -/
def transact (c : Config) (t : Transaction) (s : State) : State :=
  match t with
  | .assertReset => Machine.assertReset c s
  | .deassertReset => Machine.deassertReset s
  | .tick => (Machine.tick c s).2
  | .write w => applyWrite c w s
  | .load draw file base size => (Machine.load draw file base size s).2

/-- The boot order of rule R344: create, assert reset, load at `RESET_VECTOR`, the host's writes, deassert reset.
`none`: the load failed, and no run starts. -/
def boot (c : Config) (u : PowerOn) (file : List Byte) (size : Nat) (writes : List HostWrite) : Option State :=
  match load [] file c.resetVector size (assertReset c (State.create u)) with
  | (.success, s) => some (deassertReset (writes.foldl (fun t w => applyWrite c w t) s))
  | _ => none

end Sys2Proof.Machine
end

