-- ==== Sys2Proof/Safety.lean ====
section
/-! DEFINITION. What the claims speak of: runs and their ends (40_engine.md R156, R157), the invariant of the state, and
what an instruction changes and leaves (R149). -/

namespace Sys2Proof.Machine

/-! ### Runs -/

/-- How `n` calls of `tick` end (rule R157). -/
inductive RunEnd where
  /-- the engine was halted before the run's first tick: `HALTED`, no instruction executed (R151) -/
  | notStarted (s : State)
  /-- a `halt` instruction ended the run: final -/
  | final (s : State)
  /-- a tick failed: the run is a fault and never final; the state is the one before that tick -/
  | failed (f : Fault) (s : State)
  /-- no meaning for an instruction; never reached (every instruction has one) -/
  | refused (r : Refusal) (s : State)
  /-- every tick so far returned `SUCCESS` -/
  | running (s : State)
deriving DecidableEq, Repr

/-- At most `n` ticks of a running engine, up to the first that does not return `SUCCESS` (rule R156). -/
def runTicks (c : Config) : Nat → State → RunEnd
  | 0, s => .running s
  | n + 1, s =>
    match tickWith c s with
    | .next t => if t.halted then .final t else runTicks c n t
    | .fault f => .failed f s
    | .refused r => .refused r s

/-- A run of at most `n` ticks (rule R157). -/
def runFor (c : Config) (n : Nat) (s : State) : RunEnd :=
  if s.halted then .notStarted s else runTicks c n s

/-- A safe run: no tick of it fails (rule R157: "every claim about a program takes no fault as a premise"). -/
def RunsSafely (c : Config) (s : State) : Prop := ∀ n f t, runFor c n s ≠ .failed f t

/-- A hang (rule R157): no tick ever returns a status other than `SUCCESS`. -/
def Hangs (c : Config) (s : State) : Prop := ∀ n, ∃ t, runFor c n s = .running t

/-! ### The invariant -/

/-- The invariant of the state: memory is in canonical form (R60), and the slot of register 0 holds 0 (R31). -/
def State.wf (s : State) : Bool := Memory.wf s.mem && decide (s.regs[0] = 0)

/-! ### What an instruction changes -/

/-- No byte of memory differs. -/
def SameMemory (s t : State) : Prop := ∀ a, Memory.read t.mem a = Memory.read s.mem a

/-- No byte of memory differs but the two of the halfword at `ea`, which may wrap past 0xFFFF (R64, R67). -/
def SameMemoryBut (ea : Word) (s t : State) : Prop :=
  ∀ a, a ≠ ea.toNat → a ≠ (ea + 1).toNat → Memory.read t.mem a = Memory.read s.mem a

/-- No general register reads differently. -/
def SameRegs (s t : State) : Prop := ∀ i, t.readReg i = s.readReg i

/-- The tick counted one cycle and left the flag (rule R145). -/
def CountedOne (s t : State) : Prop := t.cycle = s.cycle + 1 ∧ t.halted = s.halted

/-- `t` is `s` after a register-only instruction: register `d` reads `v` unless it is register 0, every other register
and all of memory are as before, pc moved by 4 and one cycle was counted. -/
def WroteReg (d : RegIdx) (v : Word) (s t : State) : Prop :=
  (∀ i, t.readReg i = if i = d ∧ d ≠ 0 then v else s.readReg i) ∧ SameMemory s t ∧ t.pc = s.pc + 4 ∧ CountedOne s t

/-- `t` is `s` after a halfword store of `v` at `ea`: the low byte at `ea`, the high byte after it, every other byte and
every register as before, pc moved by 4 and one cycle was counted. -/
def StoredHalf (ea v : Word) (s t : State) : Prop :=
  Memory.read t.mem ea.toNat = some (v.extractLsb' 0 8) ∧
    Memory.read t.mem (ea + 1).toNat = some (v.extractLsb' 8 8) ∧
    SameMemoryBut ea s t ∧ SameRegs s t ∧ t.pc = s.pc + 4 ∧ CountedOne s t

/-- `t` is `s` after a jump that was taken: the link in `d` unless it is register 0, pc at the target, every other
register and all of memory as before, one cycle counted. -/
def Jumped (d : RegIdx) (target : Word) (s t : State) : Prop :=
  (∀ i, t.readReg i = if i = d ∧ d ≠ 0 then s.pc + 4 else s.readReg i) ∧ SameMemory s t ∧ t.pc = target ∧
    CountedOne s t

/-- `t` is `s` after a jump that was not taken: only pc and the cycle counter moved. -/
def FellThrough (s t : State) : Prop := SameRegs s t ∧ SameMemory s t ∧ t.pc = s.pc + 4 ∧ CountedOne s t

/-! ### What a word or an instruction says -/

/-- Every word with this opcode decodes, by default, to the DSS instruction of its three register fields, whatever its
reserved bits (R94, R97, R101). -/
def DecodesDss (opcode : BitVec 6) (mk : RegIdx → RegIdx → RegIdx → Instr) : Prop :=
  ∀ w, opcodeField w = opcode → decode w = .ok (mk (destField w) (source1Field w) (source2Field w))

/-- Every word with this opcode decodes, by default, to the DSI instruction of its fields (R93, R97). -/
def DecodesDsi (opcode : BitVec 6) (mk : RegIdx → RegIdx → Word → Instr) : Prop :=
  ∀ w, opcodeField w = opcode → decode w = .ok (mk (destField w) (source1Field w) (immField w))

/-- The address a storing instruction stores to, computed as its meaning computes it; `none` for one that stores
nothing (rules R69, R261, R263). -/
def storeAddress (i : Instr) (s : State) : Option Word :=
  match i with
  | .sh _ s1 imm => some (eaImm s s1 imm)
  | .shx _ s1 s2 => some (eaIndex s s1 s2)
  | _ => none

/-- The register an instruction may write: the dest field, but for the stores, whose dest field is data (R261, R263),
and `halt` (R149). -/
def writtenReg (i : Instr) : Option RegIdx :=
  match i.toFields with
  | .dss .shx _ _ _ => none
  | .dss _ d _ _ => some d
  | .dsi .sh _ _ _ => none
  | .dsi _ d _ _ => some d
  | .i .halt _ => none

/-- The conditional jump-and-link instructions (46_jump.md). -/
def isJump : Instr → Bool
  | .jlz .. | .jlo .. | .jlrz .. | .jlro .. => true
  | _ => false

/-- Two states that no read of a register, of pc, of the flag, of the counter or of a byte tells apart. -/
def Alike (s t : State) : Prop :=
  (∀ i, t.readReg i = s.readReg i) ∧ t.pc = s.pc ∧ t.halted = s.halted ∧ t.cycle = s.cycle ∧
    ∀ a, Memory.read t.mem a = Memory.read s.mem a

/-- The tick of `s` executes a `halt` (rules R144, R146). -/
def ExecutesHalt (c : Config) (s : State) : Prop :=
  s.halted = false ∧ ∃ w imm, fetch c s = .ok w ∧ decodeWith c w = .ok (.halt imm)

end Sys2Proof.Machine
end

