-- ==== Sys2Proof/Certificates/Slice0/Obligations.lean ====
section
/-! DEFINITION. The statements for the provers, each `def Obligations.<Name> : Prop`, family by family. A docstring names
the rule of spec/ it formalises. Where the rule is marked as the spec's own decision or derivation, the docstring
names that mark and the statement's basis is 'derived'. -/

open Sys2Proof Sys2Proof.Machine

/-! ### Registers and memory -/

/-- R31: register 0 reads 0 and every write to it is a no-op, whoever makes it: the write operation itself, an
instruction's writeback (a load's and a link's among them), and a host write. -/
def Obligations.RegisterZeroReadsZeroAndDiscardsWrites : Prop :=
  ∀ s : State, s.readReg 0 = 0 ∧ (∀ v, s.writeReg 0 v = s) ∧ (∀ c v, applyWrite c (.reg 0 v) s = s) ∧
    ∀ c i e v, effectOf c i s = .ok e → e.reg = some (0, v) →
      ∃ t, execWith c i s = .next t ∧ SameRegs s t ∧ t.readReg 0 = 0

/-- R61, R64 (the reads and writes they give; that nothing else makes a byte access is not stated): a byte write sets its byte; a halfword write sets the low byte at the address and the high byte at the
byte after it; no other byte changes; and a byte read returns the byte that stands there. -/
def Obligations.WritesDecomposeLittleEndian : Prop :=
  ∀ (m : Memory) (a : Word),
    (∀ b : Byte, readByte (writeByte m a b) a = .ok b ∧
      ∀ k : Nat, k ≠ a.toNat → Memory.read (writeByte m a b) k = Memory.read m k) ∧
    (∀ v : Word, readByte (writeHalf m a v) a = .ok (v.extractLsb' 0 8) ∧
      readByte (writeHalf m a v) (addrAfter a 1) = .ok (v.extractLsb' 8 8) ∧
      ∀ k : Nat, k ≠ a.toNat → k ≠ (addrAfter a 1).toNat → Memory.read (writeHalf m a v) k = Memory.read m k)

/-- R65, second bullet, with R62 to R64 (the spec's own derivation): a halfword written is read back at every address,
0xFFFF among them, and a fetch from a word written as two halfwords h0 at a and h1 at a + 2 sees h1 ++ h0. -/
def Obligations.HalfwordStoresReadBackAndFormWords : Prop :=
  ∀ (m : Memory) (a h0 h1 : Word),
    readHalf Config.default (writeHalf m a h0) a = .ok h0 ∧
      readWord Config.default (writeHalf (writeHalf m a h0) (addrAfter a 2) h1) a = .ok (h1 ++ h0)

/-- R68 (decision D21; log entries 1 and 11): a load of a halfword one of whose bytes nothing has written stops with a fault of
the model that names the first such byte. -/
def Obligations.LoadOfUnwrittenByteFaults : Prop :=
  ∀ (d s1 s2 : RegIdx) (imm : Word) (s : State),
    (Memory.read s.mem (eaImm s s1 imm).toNat = none →
      exec (.lh d s1 imm) s = .fault (.unwrittenByte (eaImm s s1 imm))) ∧
    (∀ lo, Memory.read s.mem (eaImm s s1 imm).toNat = some lo →
      Memory.read s.mem (eaImm s s1 imm + 1).toNat = none →
      exec (.lh d s1 imm) s = .fault (.unwrittenByte (eaImm s s1 imm + 1))) ∧
    (Memory.read s.mem (eaIndex s s1 s2).toNat = none →
      exec (.lhx d s1 s2) s = .fault (.unwrittenByte (eaIndex s s1 s2))) ∧
    (∀ lo, Memory.read s.mem (eaIndex s s1 s2).toNat = some lo →
      Memory.read s.mem (eaIndex s s1 s2 + 1).toNat = none →
      exec (.lhx d s1 s2) s = .fault (.unwrittenByte (eaIndex s s1 s2 + 1)))

/-! ### Encoding -/

/-- The words the spec writes out (41_arithmetic.md to 47_halt.md, examples; the default encodings are decisions D1 and
D2) decode to the instructions they stand for. -/
def Obligations.TheSpecsExampleWordsDecode : Prop :=
  decode 0x000D62C1 = .ok (.add 11 12 13) ∧ decode 0xFFFF02C2 = .ok (.addi 11 0 0xFFFF) ∧
    decode 0x000500CA = .ok (.ori 3 0 5) ∧ decode 0x00015B1A = .ok (.srai 12 11 1) ∧
    decode 0x000D62E5 = .ok (.sltu 11 12 13) ∧ decode 0xFFFE62EA = .ok (.sh 11 12 0xFFFE) ∧
    decode 0x000C5875 = .ok (.jlro 1 11 12) ∧ decode 0x00000003 = .ok (.halt 0)

/-- R92 to R94, R97, R104 (default encodings: decisions D1 and D2): a word decodes to an instruction exactly when its
opcode is the instruction's and each field of the instruction's layout holds the instruction's operand. -/
def Obligations.DecodeReadsTheOpcodeAndEveryField : Prop :=
  ∀ (w : InstrWord) (i : Instr), decode w = .ok i ↔
    opcodeField w = i.opcode ∧
      match i.toFields with
      | .dss _ d s1 s2 => destField w = d ∧ source1Field w = s1 ∧ source2Field w = s2
      | .dsi _ d s1 imm => destField w = d ∧ source1Field w = s1 ∧ immField w = imm
      | .i _ imm => immField w = imm

/-- E7 of 95_test_vectors.md (R105): for every instruction, with every operand at every value, decoding its word gives it
back, and so does decoding its four bytes wherever more bytes follow. -/
def Obligations.DecodeOfEncodeIsTheInstruction : Prop :=
  ∀ i : Instr, decode (encode i) = .ok i ∧ ∀ rest, decodeBytes (encodeBytes i ++ rest) = .ok (i, rest)

/-- R95, R97, R104 for every choice of the parameters: wherever `FORMAT_CODE` is injective and `OPCODE_MAP` gives the
instruction an opcode, the instruction has a word and the word decodes to it. -/
def Obligations.RoundTripHoldsForEveryParameterChoice : Prop :=
  ∀ (c : Config) (i : Instr), c.wellFormed = true → i.wellFormed c = true →
    ∃ w, encodeWith c i = some w ∧ decodeWith c w = .ok i

/-- R101 (decision D6): a decoded word, with its layout's reserved bits cleared, is the instruction's own word. -/
def Obligations.DecodedWordsAreEncodingsUpToReservedBits : Prop :=
  ∀ (w : InstrWord) (i : Instr), decode w = .ok i →
    encode i = w &&& (match i.toFields.layout with
      | .dss => 0x001FFFFF
      | .dsi => 0xFFFFFFFF
      | .i => 0xFFFF003F)

/-- R106 (decisions D1, D2, D7): exactly these words are invalid by default: format 0b00; I functs 1 to 15; DSI functs
13 to 15; DSS functs 14 and 15. -/
def Obligations.ExactlyTheUnmappedWordsAreInvalid : Prop :=
  ∀ w : InstrWord, (∃ r, decode w = .error r) ↔
    formatField w = 0b00 ∨ (formatField w = 0b11 ∧ 1 ≤ (functField w).toNat) ∨
      (formatField w = 0b10 ∧ 13 ≤ (functField w).toNat) ∨ (formatField w = 0b01 ∧ 14 ≤ (functField w).toNat)

/-! ### Arithmetic and logic: results and frames -/

/-- R180, R181 (decision D3): `add` and `sub` write the 16-bit sum and difference, modulo 2^16, and complete in every
state with every operand. -/
def Obligations.AddAndSubWriteSumAndDifference : Prop :=
  ∀ (d s1 s2 : RegIdx) (s : State),
    (∃ t, exec (.add d s1 s2) s = .next t ∧ WroteReg d (s.readReg s1 + s.readReg s2) s t) ∧
    (∃ t, exec (.sub d s1 s2) s = .next t ∧ WroteReg d (s.readReg s1 - s.readReg s2) s t)

/-- R182: `addi`. Its opcode is the default encoding, the spec's own choice (decisions D1 and D2; log entry 6). -/
def Obligations.AddiAddsItsImmediate : Prop :=
  DecodesDsi 0x02 .addi ∧ ∀ (d s1 : RegIdx) (imm : Word) (s : State),
    ∃ t, exec (.addi d s1 imm) s = .next t ∧ WroteReg d (s.readReg s1 + imm) s t

/-- R201: `or`, and that `or zero, zero, zero` changes nothing but pc and cycle. The opcode is the default
encoding (decisions D1 and D2; log entry 6), and that reserved bits are ignored is decision D6 (log entry 12). -/
def Obligations.OrWritesTheBitwiseOr : Prop :=
  DecodesDss 0x0D .or ∧ ∀ (d s1 s2 : RegIdx) (s : State),
    (∃ t, exec (.or d s1 s2) s = .next t ∧ WroteReg d (s.readReg s1 ||| s.readReg s2) s t) ∧
    (∃ t, exec (.or 0 0 0) s = .next t ∧ FellThrough s t)

/-- R204: `ori`. Its opcode is the default encoding, the spec's own choice (decisions D1 and D2; log entry 6). -/
def Obligations.OriWritesTheBitwiseOr : Prop :=
  DecodesDsi 0x0A .ori ∧ ∀ (d s1 : RegIdx) (imm : Word) (s : State),
    ∃ t, exec (.ori d s1 imm) s = .next t ∧ WroteReg d (s.readReg s1 ||| imm) s t

/-- R200, R202, R203, R205 (decision D3): `and`, `xor`, `andi` and `xori`. -/
def Obligations.AndAndXorWriteTheBitwiseResult : Prop :=
  ∀ (d s1 s2 : RegIdx) (imm : Word) (s : State),
    (∃ t, exec (.and d s1 s2) s = .next t ∧ WroteReg d (s.readReg s1 &&& s.readReg s2) s t) ∧
    (∃ t, exec (.xor d s1 s2) s = .next t ∧ WroteReg d (s.readReg s1 ^^^ s.readReg s2) s t) ∧
    (∃ t, exec (.andi d s1 imm) s = .next t ∧ WroteReg d (s.readReg s1 &&& imm) s t) ∧
    (∃ t, exec (.xori d s1 imm) s = .next t ∧ WroteReg d (s.readReg s1 ^^^ imm) s t)

/-! ### Shifts -/

/-- R221, R222, R223, R224 with R220 under `SHIFT_AMOUNT_RULE = full` (decisions D3 and D14; log entry 6): the register shifts and
`slli` shift by the whole 16-bit amount. -/
def Obligations.RegisterShiftsAndSlliShiftByTheWholeAmount : Prop :=
  ∀ (d s1 s2 : RegIdx) (imm : Word) (s : State),
    (∃ t, exec (.sll d s1 s2) s = .next t ∧
      WroteReg d (if (s.readReg s2).toNat < 16 then s.readReg s1 <<< (s.readReg s2).toNat else 0) s t) ∧
    (∃ t, exec (.srl d s1 s2) s = .next t ∧
      WroteReg d (if (s.readReg s2).toNat < 16 then s.readReg s1 >>> (s.readReg s2).toNat else 0) s t) ∧
    (∃ t, exec (.sra d s1 s2) s = .next t ∧ WroteReg d ((s.readReg s1).sshiftRight (s.readReg s2).toNat) s t) ∧
    (∃ t, exec (.slli d s1 imm) s = .next t ∧
      WroteReg d (if imm.toNat < 16 then s.readReg s1 <<< imm.toNat else 0) s t)

/-- R225 with R220 under `SHIFT_AMOUNT_RULE = full` (decision D14, the spec's own choice; log entry 6): `srli` shifts zeros
in, and an amount of 16 or more gives 0. The opcode is the default encoding (decisions D1 and D2). -/
def Obligations.SrliShiftsZerosIn : Prop :=
  DecodesDsi 0x16 .srli ∧ ∀ (d s1 : RegIdx) (imm : Word) (s : State),
    ∃ t, exec (.srli d s1 imm) s = .next t ∧
      WroteReg d (if imm.toNat < 16 then s.readReg s1 >>> imm.toNat else 0) s t

/-- R226 with R220 under `SHIFT_AMOUNT_RULE = full` (decision D14, the spec's own choice; log entry 6): `srai` copies the
sign bit in, and an amount of 16 or more gives 0x0000 or 0xFFFF per bit 15. The opcode is the default encoding (decisions
D1 and D2). -/
def Obligations.SraiCopiesTheSignIn : Prop :=
  DecodesDsi 0x1A .srai ∧ ∀ (d s1 : RegIdx) (imm : Word) (s : State),
    ∃ t, exec (.srai d s1 imm) s = .next t ∧
      WroteReg d (if imm.toNat < 16 then (s.readReg s1).sshiftRight imm.toNat
        else if (s.readReg s1).getLsbD 15 then 0xFFFF else 0) s t

/-- R220, the alternatives of `SHIFT_AMOUNT_RULE` (decision D14): under `mod16` every shift is the `full` shift by the
amount modulo 16; under `draw` an amount below 16 shifts as under `full`, and from 16 on the result is the free value
of log entry 5, whatever it is. -/
def Obligations.ShiftAmountRuleAlternatives : Prop :=
  ∀ (c : Config) (d s1 : RegIdx) (imm : Word) (s : State),
    (c.shiftAmount = .mod16 →
      (∃ t, execWith c (.slli d s1 imm) s = .next t ∧ WroteReg d (shl (s.readReg s1) (imm.toNat % 16)) s t) ∧
      (∃ t, execWith c (.srli d s1 imm) s = .next t ∧ WroteReg d (shrL (s.readReg s1) (imm.toNat % 16)) s t) ∧
      (∃ t, execWith c (.srai d s1 imm) s = .next t ∧ WroteReg d (shrA (s.readReg s1) (imm.toNat % 16)) s t)) ∧
    (c.shiftAmount = .draw → imm.toNat < 16 →
      ∃ t, execWith c (.slli d s1 imm) s = .next t ∧ WroteReg d (shl (s.readReg s1) imm.toNat) s t) ∧
    (c.shiftAmount = .draw → 16 ≤ imm.toNat →
      ∃ t, execWith c (.slli d s1 imm) s = .next t ∧
        WroteReg d (Config.shiftDraw .left (s.readReg s1) imm) s t)

/-! ### Comparisons -/

/-- R240 to R243 (decision D16): each comparison writes 0x0001 where its relation holds and 0x0000 otherwise. -/
def Obligations.ComparisonsWriteZeroOrOne : Prop :=
  ∀ (d s1 s2 : RegIdx) (imm : Word) (s : State),
    (∃ t, exec (.slt d s1 s2) s = .next t ∧
      WroteReg d (if (s.readReg s1).toInt < (s.readReg s2).toInt then 1 else 0) s t) ∧
    (∃ t, exec (.sltu d s1 s2) s = .next t ∧
      WroteReg d (if (s.readReg s1).toNat < (s.readReg s2).toNat then 1 else 0) s t) ∧
    (∃ t, exec (.slti d s1 imm) s = .next t ∧
      WroteReg d (if (s.readReg s1).toInt < imm.toInt then 1 else 0) s t) ∧
    (∃ t, exec (.sltiu d s1 imm) s = .next t ∧
      WroteReg d (if (s.readReg s1).toNat < imm.toNat then 1 else 0) s t)

/-- R43 and the head of 44_compare.md (the members are decision D16): a comparison result feeds the jumps. After any of
the four comparisons into a register other than 0, `jlo` on that register jumps exactly when the relation held, and
`jlz` exactly when it did not. Stated for `sltu` and `slt`. -/
def Obligations.ComparisonThenJumpFollowsTheRelation : Prop :=
  ∀ (d s1 s2 : RegIdx) (target : Word) (s : State), d ≠ 0 →
    (∃ t u v, exec (.sltu d s1 s2) s = .next t ∧ exec (.jlo 0 d target) t = .next u ∧
      exec (.jlz 0 d target) t = .next v ∧
      u.pc = (if (s.readReg s1).toNat < (s.readReg s2).toNat then target else s.pc + 8) ∧
      v.pc = (if (s.readReg s1).toNat < (s.readReg s2).toNat then s.pc + 8 else target)) ∧
    (∃ t u v, exec (.slt d s1 s2) s = .next t ∧ exec (.jlo 0 d target) t = .next u ∧
      exec (.jlz 0 d target) t = .next v ∧
      u.pc = (if (s.readReg s1).toInt < (s.readReg s2).toInt then target else s.pc + 8) ∧
      v.pc = (if (s.readReg s1).toInt < (s.readReg s2).toInt then s.pc + 8 else target))

/-! ### Loads and stores -/

/-- R260, R262 (decision D15): a load of a halfword whose two bytes are written completes and writes it, the byte at
the address low. -/
def Obligations.LoadsWriteTheHalfword : Prop :=
  ∀ (d s1 s2 : RegIdx) (imm : Word) (s : State) (lo hi : Byte),
    (Memory.read s.mem (s.readReg s1 + imm).toNat = some lo →
      Memory.read s.mem (s.readReg s1 + imm + 1).toNat = some hi →
      ∃ t, exec (.lh d s1 imm) s = .next t ∧ WroteReg d (hi ++ lo) s t) ∧
    (Memory.read s.mem (s.readReg s1 + s.readReg s2).toNat = some lo →
      Memory.read s.mem (s.readReg s1 + s.readReg s2 + 1).toNat = some hi →
      ∃ t, exec (.lhx d s1 s2) s = .next t ∧ WroteReg d (hi ++ lo) s t)

/-- R261, R263 (decisions D12 and D15): a store completes in every state and leaves `x[d]`, the dest field's register,
at the address its meaning computes, and nothing else in memory differs. -/
def Obligations.StoresWriteTheHalfword : Prop :=
  ∀ (d s1 s2 : RegIdx) (imm : Word) (s : State),
    (∃ t, exec (.sh d s1 imm) s = .next t ∧ StoredHalf (eaImm s s1 imm) (s.readReg d) s t) ∧
    (∃ t, exec (.shx d s1 s2) s = .next t ∧ StoredHalf (eaIndex s s1 s2) (s.readReg d) s t)

/-- R78, R79 (the spec's own derivation): a store to the two low bytes of the next instruction is what the next tick
fetches, above the two bytes that stand there already. -/
def Obligations.AStoreIsSeenByTheNextFetch : Prop :=
  ∀ (d s1 : RegIdx) (imm : Word) (s : State) (b2 b3 : Byte), eaImm s s1 imm = s.pc + 4 →
    Memory.read s.mem (s.pc + 6).toNat = some b2 → Memory.read s.mem (s.pc + 7).toNat = some b3 →
    ∃ t, exec (.sh d s1 imm) s = .next t ∧ fetch Config.default t = .ok (b3 ++ b2 ++ s.readReg d)

/-! ### Jumps and halt -/

/-- R280: `jlz` jumps to its immediate and links exactly when `x[s1]` is 0. The link `pc + 4` and the absolute target are
the spec's decisions D9 and D10, the wrap of `pc + 4` D13 and the old `x[s1]` D8 (log entry 12); the opcode is the default
encoding (D1 and D2; log entry 6). -/
def Obligations.JlzJumpsOnZero : Prop :=
  DecodesDsi 0x2E .jlz ∧ ∀ (d s1 : RegIdx) (imm : Word) (s : State),
    ∃ t, exec (.jlz d s1 imm) s = .next t ∧
      if s.readReg s1 = 0 then Jumped d imm s t else FellThrough s t

/-- R282: `jlrz` jumps to `x[s2]`, as it was before the tick, and links exactly when `x[s1]` is 0. The old `x[s2]`, the
link `pc + 4`, the register target and the wrap of `pc + 4` are the spec's decisions D8, D9, D10 and D13, and ignored reserved
bits D6 (log entry 12); the opcode is the default encoding (D1 and D2; log entry 6). -/
def Obligations.JlrzJumpsOnZero : Prop :=
  DecodesDss 0x31 .jlrz ∧ ∀ (d s1 s2 : RegIdx) (s : State),
    ∃ t, exec (.jlrz d s1 s2) s = .next t ∧
      if s.readReg s1 = 0 then Jumped d (s.readReg s2) s t else FellThrough s t

/-- R281, R283 (decision D17: exact equality with 1; D8, D9, D10 and D13 for the old operands, the link, the target and the
wrap; log entry 12): `jlo` and `jlro`. -/
def Obligations.JloAndJlroJumpOnExactlyOne : Prop :=
  ∀ (d s1 s2 : RegIdx) (imm : Word) (s : State),
    (∃ t, exec (.jlo d s1 imm) s = .next t ∧
      if s.readReg s1 = 1 then Jumped d imm s t else FellThrough s t) ∧
    (∃ t, exec (.jlro d s1 s2) s = .next t ∧
      if s.readReg s1 = 1 then Jumped d (s.readReg s2) s t else FellThrough s t)

/-- R280, corner case "a target equal to pc loops on itself" (default parameters): a running engine whose pc stands on
a `jlz zero, zero, pc` hangs. -/
def Obligations.AJumpToItselfHangs : Prop :=
  ∀ (s : State) (w : InstrWord), s.halted = false → fetch Config.default s = .ok w →
    decode w = .ok (.jlz 0 0 s.pc) → Hangs Config.default s

/-- R146, R300 (decision D18): `halt` completes in every state, sets the flag and leaves every register, every byte and
pc; the cycle counter counts the tick only under `HALT_COUNTS_CYCLE`, which is false by default. -/
def Obligations.HaltSetsTheFlagAndNothingElse : Prop :=
  ∀ (imm : Word) (s : State),
    (∃ t, exec (.halt imm) s = .next t ∧ t.halted = true ∧ SameRegs s t ∧ SameMemory s t ∧ t.pc = s.pc ∧
      t.cycle = s.cycle) ∧
    ∀ c, ∃ t, execWith c (.halt imm) s = .next t ∧ t.halted = true ∧ SameRegs s t ∧ SameMemory s t ∧ t.pc = s.pc ∧
      t.cycle = if c.haltCountsCycle then s.cycle + 1 else s.cycle

/-- R42, R151, R300 (the spec's own derivation; decisions D18 and D19): after the tick of a `halt`, further ticks change
nothing, and after `deassert_reset` the same `halt` is executed again and leaves the same state. -/
def Obligations.AHaltRepeatsAfterRelease : Prop :=
  ∀ (s : State) (w : InstrWord) (imm : Word), s.halted = false → fetch Config.default s = .ok w →
    decode w = .ok (.halt imm) →
    ∃ t, step s = .next t ∧ step t = .next t ∧ step (deassertReset t) = .next t

/-! ### Every instruction -/

/-- R149 (the spec's own derivation): for every choice of the parameters, no effect writes both a register and memory,
only `halt` halts and it has no other effect, and only the jumps jump, which write no memory. -/
def Obligations.EffectsAreExclusive : Prop :=
  ∀ (c : Config) (i : Instr) (s : State) (e : Effect), effectOf c i s = .ok e →
    (e.reg = none ∨ e.mem = none) ∧ (e.halt = true ↔ ∃ imm, i = .halt imm) ∧
    (e.halt = true → e.reg = none ∧ e.mem = none ∧ e.jump = none) ∧
    (e.jump.isSome = true → isJump i = true ∧ e.mem = none)

/-- R32 and R69 over all 28 instructions: whatever the parameters, an instruction that completes changes at most the
register it may write and the two bytes at the address it stores to; one that stores nothing leaves all of memory. -/
def Obligations.OnlyTheNamedRegisterAndHalfwordChange : Prop :=
  ∀ (c : Config) (i : Instr) (s t : State), execWith c i s = .next t →
    (∀ r, writtenReg i ≠ some r → t.readReg r = s.readReg r) ∧
    (match storeAddress i s with
      | some ea => SameMemoryBut ea s t
      | none => SameMemory s t)

/-- R41: the flag is written by three things. `assert_reset` sets it, `deassert_reset` clears it, `halt` sets it; no
other instruction writes it and no instruction's effect depends on it. Nor does a host write or a program load change it.
(The tick itself and the host read the flag, by R144 and R153: neither is an instruction.) -/
def Obligations.ThreeThingsWriteTheFlag : Prop :=
  (∀ c s, (assertReset c s).halted = true) ∧ (∀ s, (deassertReset s).halted = false) ∧
    (∀ c imm s t, execWith c (.halt imm) s = .next t → t.halted = true) ∧
    (∀ c i s t, (∀ imm, i ≠ .halt imm) → execWith c i s = .next t → t.halted = s.halted) ∧
    (∀ c w s, (applyWrite c w s).halted = s.halted) ∧
    (∀ draw file base size s, (load draw file base size s).2.halted = s.halted) ∧
    ∀ c i s b, effectOf c i (s.setHalted b) = effectOf c i s

/-- R44, R45 (the spec's own derivation): no instruction reads or writes the counter, so a tick from a state that
differs in the counter alone answers alike, with the counter moved by the same amount. -/
def Obligations.TheCycleCounterInfluencesNothing : Prop :=
  ∀ (c : Config) (s : State) (v : Word),
    match tickWith c s with
    | .next t => tickWith c (s.setCycle v) = .next (t.setCycle (v + (t.cycle - s.cycle)))
    | .fault f => tickWith c (s.setCycle v) = .fault f
    | .refused r => tickWith c (s.setCycle v) = .refused r

/-- R148 (decision D3): every instruction has a meaning, so that no refusal is ever answered; and the only instructions
that can stop with a fault by default are the loads, at a byte of their halfword that nothing has written (R68,
decision D21; log entry 1). -/
def Obligations.OnlyLoadsOfUnwrittenBytesStop : Prop :=
  ∀ (i : Instr) (s : State), (∀ r, exec i s ≠ .refused r) ∧
    ∀ f, exec i s = .fault f → ∃ a : Word, f = .unwrittenByte a ∧ Memory.read s.mem a.toNat = none ∧
      ((∃ d s1 imm, i = .lh d s1 imm ∧ (a = eaImm s s1 imm ∨ a = eaImm s s1 imm + 1)) ∨
        (∃ d s1 s2, i = .lhx d s1 s2 ∧ (a = eaIndex s s1 s2 ∨ a = eaIndex s s1 s2 + 1)))

/-! ### The tick -/

/-- R141 to R143 (default parameters): a running engine whose four bytes at pc, wherever pc points, decode to an
instruction executes it: the step is exec of the instruction at that state, with nothing around it (pc and the counter
are moved by the instruction's own commit). -/
def Obligations.AStepRunsTheDecodedInstruction : Prop :=
  ∀ (s : State) (b0 b1 b2 b3 : Byte) (i : Instr), s.halted = false →
    Memory.read s.mem s.pc.toNat = some b0 → Memory.read s.mem (s.pc + 1).toNat = some b1 →
    Memory.read s.mem (s.pc + 2).toNat = some b2 → Memory.read s.mem (s.pc + 3).toNat = some b3 →
    decodeBytes [b0, b1, b2, b3] = .ok (i, []) → step s = exec i s

/-- Log entry 3 (the model's own way to place a program): from any state, the step after `withFetchWord` of an
instruction's word runs that instruction on the state with the word at pc and the flag clear. -/
def Obligations.ThePlacedInstructionRunsNext : Prop :=
  ∀ (s : State) (i : Instr),
    step (s.withFetchWord 32 (encode i).toNat) = exec i (s.withFetchWord 32 (encode i).toNat)

/-- R151 (decision D19): a tick asked of a halted engine returns `HALTED` and changes nothing, so that any number of
steps leaves it as it is (R322). -/
def Obligations.AHaltedEngineStaysAsItIs : Prop :=
  ∀ (s : State), s.halted = true →
    (∀ c, tick c s = (some .halted, s)) ∧ ∀ n, Host.Core.run Sys2Proof.core n s = .next s

/-- R147 (decision D7), R99: a tick that fetches an invalid word returns `INVALID_INSTRUCTION` with that word and
changes nothing. -/
def Obligations.AnInvalidWordChangesNothing : Prop :=
  ∀ (c : Config) (s : State) (w : InstrWord) (r : DecodeReject), s.halted = false → fetch c s = .ok w →
    decodeWith c w = .error r → tick c s = (some (.invalidInstruction w), s)

/-- R150, R152, R313 (decision D26 and the spec's own derivation): a tick whose status is neither `SUCCESS` nor `HALTED`
leaves the state as it was, and the statuses of the host operations are never a tick's. -/
def Obligations.AFailedTickChangesNothing : Prop :=
  ∀ (c : Config) (s : State),
    ((tick c s).1 ≠ some .success → (tick c s).1 ≠ some .halted → (tick c s).2 = s) ∧
    (tick c s).1 ≠ some .invalidArgument ∧ (tick c s).1 ≠ some .outOfMemory

/-- R145: a tick that returns `SUCCESS` adds 1 to the counter, modulo 2^16; a tick that returns any other status leaves
it, but for a `halt` tick under `HALT_COUNTS_CYCLE`, which adds 1. -/
def Obligations.SuccessCountsOneCycle : Prop :=
  ∀ (c : Config) (s : State),
    ((tick c s).1 = some .success → (tick c s).2.cycle = s.cycle + 1) ∧
    ((tick c s).1 ≠ some .success → ¬ (c.haltCountsCycle = true ∧ ExecutesHalt c s) → (tick c s).2.cycle = s.cycle) ∧
    (c.haltCountsCycle = true → ExecutesHalt c s →
      (tick c s).1 = some .halted ∧ (tick c s).2.cycle = s.cycle + 1)

/-- R37 (decision D13 for the wrap): after `SUCCESS` pc is the target of the jump the tick took, else pc + 4; after any
other status pc is as it was. -/
def Obligations.PcAdvancesOrJumps : Prop :=
  ∀ (c : Config) (s : State),
    ((tick c s).1 = some .success → ∃ w i e, fetch c s = .ok w ∧ decodeWith c w = .ok i ∧ effectOf c i s = .ok e ∧
      (tick c s).2.pc = match e.jump with
        | some target => target
        | none => s.pc + 4) ∧
    ((tick c s).1 ≠ some .success → (tick c s).2.pc = s.pc)

/-- R38 (the spec's own derivation): an instruction that is no jump moves pc within its residue modulo 4, so an aligned
pc stays aligned and a misaligned one misaligned. -/
def Obligations.SequentialAdvanceKeepsAlignment : Prop :=
  ∀ (c : Config) (i : Instr) (s t : State), isJump i = false → execWith c i s = .next t →
    t.pc.toNat % 4 = s.pc.toNat % 4

/-- R66, R141, R312 under the non-default `MISALIGNED_FETCH = fault` (decision D11): a tick of a running engine at a
misaligned pc returns `INVALID_ADDRESS` with pc and changes nothing, whatever stands in memory. -/
def Obligations.MisalignedFetchParameterFaults : Prop :=
  ∀ (c : Config) (s : State), c.misalignedFetch = .fault → s.halted = false → s.pc.toNat % 4 ≠ 0 →
    tick c s = (some (.invalidAddress s.pc), s)

/-- R67, R141 and 45_loadstore.md under the non-default `EDGE_WRAP = fault` (decision D12): a fetch above 0xFFFC and a
load or store at 0xFFFF raise InvalidAddress and change nothing. -/
def Obligations.EdgeWrapParameterFaults : Prop :=
  ∀ (c : Config) (s : State), c.edgeWrap = .fault →
    (s.halted = false → 0xFFFC < s.pc.toNat → tick c s = (some (.invalidAddress s.pc), s)) ∧
    (∀ d s1 imm, eaImm s s1 imm = 0xFFFF →
      execWith c (.lh d s1 imm) s = .fault (.invalidAddress 0xFFFF) ∧
      execWith c (.sh d s1 imm) s = .fault (.invalidAddress 0xFFFF)) ∧
    (∀ d s1 s2, eaIndex s s1 s2 = 0xFFFF →
      execWith c (.lhx d s1 s2) s = .fault (.invalidAddress 0xFFFF) ∧
      execWith c (.shx d s1 s2) s = .fault (.invalidAddress 0xFFFF))

/-- R311 (the spec's own derivation): under the default parameters `INVALID_ADDRESS` never occurs. -/
def Obligations.NoAddressIsInvalidByDefault : Prop :=
  ∀ (s : State) (a : Word), step s ≠ .fault (.invalidAddress a) ∧
    (tick Config.default s).1 ≠ some (.invalidAddress a)

/-- R48, R75 (the spec's own derivation): no hidden state. Two states that no read tells apart step alike: to next
states that no read tells apart, or to the same fault. -/
def Obligations.AStepDependsOnlyOnWhatCanBeRead : Prop :=
  ∀ s s' : State, Alike s s' →
    (∀ t, step s = .next t → ∃ t', step s' = .next t' ∧ Alike t t') ∧
    (∀ f, step s = .fault f → step s' = .fault f)

/-! ### The invariant -/

/-- The state after reset meets the invariant `State.wf`. -/
def Obligations.ResetMeetsTheInvariant : Prop := State.reset.wf = true

/-- R31, R60: from every state that meets the invariant, a step that answers a next state gives one that meets it: memory
stays in canonical form inside the 64 KiB, and the slot of register 0 stays 0. -/
def Obligations.EveryStepKeepsTheInvariant : Prop :=
  ∀ s t : State, s.wf = true → step s = .next t → t.wf = true

/-- R31, R60, R153: every transaction of the host, a tick under any parameters and a failed load among them, keeps the
invariant. -/
def Obligations.EveryTransactionKeepsTheInvariant : Prop :=
  ∀ (c : Config) (x : Transaction) (s : State), s.wf = true → (transact c x s).wf = true

/-! ### Runs -/

/-- R318 (the spec's own derivation): after a run of n ticks that all returned `SUCCESS` the counter has moved by n,
modulo 2^16, for every choice of the parameters. -/
def Obligations.TheCounterCountsTicks : Prop :=
  ∀ (c : Config) (n : Nat) (s t : State), runFor c n s = .running t → t.cycle = s.cycle + BitVec.ofNat 16 n

/-- R157 (decision D33), R146: a final run ends on a `halt` instruction, with the flag set and pc on that `halt`; a
failed run ends in the running state whose next tick fails the same way. -/
def Obligations.RunsEndOnAHaltOrRepeatTheirFailure : Prop :=
  ∀ (c : Config) (n : Nat) (s t : State),
    (runFor c n s = .final t → t.halted = true ∧ ExecutesHalt c (deassertReset t)) ∧
    (∀ f, runFor c n s = .failed f t → t.halted = false ∧ tickWith c t = .fault f)

/-! ### Reset, the host and the load -/

/-- R340, R343 (decisions D20 and D22): `assert_reset` sets pc to `RESET_VECTOR` and the flag, and changes nothing else
but, where `RESET_CYCLE` gives a value, the counter. -/
def Obligations.AssertResetWritesPcAndTheFlag : Prop :=
  ∀ (c : Config) (s : State), (assertReset c s).pc = c.resetVector ∧ (assertReset c s).halted = true ∧
    SameRegs s (assertReset c s) ∧ SameMemory s (assertReset c s) ∧
    (assertReset c s).cycle = (match c.resetCycle with
      | some v => v
      | none => s.cycle) ∧
    (assertReset Config.default s).pc = 0x0100 ∧ (assertReset Config.default s).cycle = s.cycle

/-- R341: `deassert_reset` clears the flag and changes nothing else; a host write of pc between the two transitions is
where execution starts. -/
def Obligations.DeassertResetClearsTheFlagOnly : Prop :=
  ∀ (c : Config) (s : State),
    ((deassertReset s).halted = false ∧ (deassertReset s).pc = s.pc ∧ (deassertReset s).cycle = s.cycle ∧
      SameRegs s (deassertReset s) ∧ SameMemory s (deassertReset s)) ∧
    ∀ v, (deassertReset (applyWrite c (.pc v) (assertReset c s))).pc = v ∧
      (deassertReset (applyWrite c (.pc v) (assertReset c s))).halted = false

/-- R35: the host reads and writes any general register, and its write to register 0 is discarded; nothing else
changes. -/
def Obligations.TheHostReadsAndWritesRegisters : Prop :=
  ∀ (c : Config) (i : RegIdx) (v : Word) (s : State),
    (∀ j, hostReadReg j (applyWrite c (.reg i v) s) = if j = i ∧ i ≠ 0 then v else hostReadReg j s) ∧
    SameMemory s (applyWrite c (.reg i v) s) ∧ (applyWrite c (.reg i v) s).pc = s.pc ∧
    (applyWrite c (.reg i v) s).cycle = s.cycle ∧ (applyWrite c (.reg i v) s).halted = s.halted

/-- R81, R62, R64 (default parameters): a byte or a halfword the host writes is what the host reads back, at any address,
and a halfword the host writes is what `lh` then loads. -/
def Obligations.TheHostAndTheInstructionsShareMemory : Prop :=
  ∀ (a : Word) (b : Byte) (v : Word) (s : State),
    hostReadByte a (applyWrite Config.default (.byte a b) s) = .ok b ∧
    hostReadHalf Config.default a (applyWrite Config.default (.half a v) s) = .ok v ∧
    ∀ d s1 imm, d ≠ 0 → eaImm s s1 imm = a →
      ∃ t, exec (.lh d s1 imm) (applyWrite Config.default (.half a v) s) = .next t ∧ t.readReg d = v

/-- R82 (decision D24 for the failed load): the load returns `SUCCESS` exactly when the file fits the region and the
address space; then byte k of the file stands at base + k and every other byte is as it was. Otherwise it returns
`OUT_OF_MEMORY`, and outside the region every byte is as it was, whatever the region holds. Either way nothing but
memory changes. -/
def Obligations.TheLoadPlacesTheFile : Prop :=
  ∀ (draw file : List Byte) (base : Word) (size : Nat) (s : State),
    ((load draw file base size s).1 = .success ↔ file.length ≤ size ∧ base.toNat + file.length ≤ 0x10000) ∧
    ((load draw file base size s).1 = .success →
      (∀ k (h : k < file.length), Memory.read (load draw file base size s).2.mem (base.toNat + k) = some file[k]) ∧
      ∀ a, (a < base.toNat ∨ base.toNat + file.length ≤ a) →
        Memory.read (load draw file base size s).2.mem a = Memory.read s.mem a) ∧
    ((load draw file base size s).1 ≠ .success →
      (load draw file base size s).1 = .outOfMemory ∧
      ∀ a, (a < base.toNat ∨ base.toNat + size ≤ a) →
        Memory.read (load draw file base size s).2.mem a = Memory.read s.mem a) ∧
    SameRegs s (load draw file base size s).2 ∧ (load draw file base size s).2.pc = s.pc ∧
    (load draw file base size s).2.halted = s.halted ∧ (load draw file base size s).2.cycle = s.cycle

/-- R344 (decision D24), R342: for every choice of what a fresh engine holds, booting a program of at least one
instruction whose first word encodes `i` gives a running engine at `RESET_VECTOR` (0x0100 by default) whose first step
is `i`. -/
def Obligations.BootRunsTheFirstInstruction : Prop :=
  ∀ (u : PowerOn) (i : Instr) (rest : List Byte) (size : Nat), rest.length + 4 ≤ size → rest.length ≤ 0xFEFC →
    ∃ s, boot Config.default u (encodeBytes i ++ rest) size [] = some s ∧ s.pc = 0x0100 ∧ s.halted = false ∧
      step s = exec i s

/-! ### The assembler -/

/-- R113 (decision D27 for `call`): each pseudo-instruction is exactly one real instruction with fixed registers. -/
def Obligations.PseudoInstructionsExpandToOneInstruction : Prop :=
  ∀ (rd rs : RegIdx) (v : SymImm),
    parseInstr "li" [.reg rd, .imm v] = .ok (.dsi .ori rd 0 v) ∧
    parseInstr "mv" [.reg rd, .reg rs] = .ok (.dss .or rd rs 0) ∧
    parseInstr "nop" [] = .ok (.dss .or 0 0 0) ∧
    parseInstr "j" [.imm v] = .ok (.dsi .jlz 0 0 v) ∧
    parseInstr "jl" [.reg rd, .imm v] = .ok (.dsi .jlz rd 0 v) ∧
    parseInstr "jlr" [.reg rd, .reg rs] = .ok (.dss .jlrz rd 0 rs) ∧
    parseInstr "ret" [] = parseInstr "jlr" [.reg 0, .reg 1] ∧
    parseInstr "call" [.imm v] = parseInstr "jl" [.reg 1, .imm v]

/-- R112, R116: a source that refers to a label it does not define fails and produces no output, wherever the
reference stands and whatever else the source holds, under any `FORMAT_CODE` and `OPCODE_MAP`. -/
def Obligations.AnUnknownLabelFailsAssembly : Prop :=
  ∀ (c : Config) (p : AsmParams) (base : Word) (gs : List Group) (op : DsiOp) (d s1 : RegIdx) (name : String),
    .instr (.dsi op d s1 (.label name)) ∈ gs → .label name ∉ gs →
    ∀ bytes, assembleGroupsWith c p base gs ≠ .ok bytes
end

