-- ==== Sys2Proof/Laws/Decode.lean ====
section
/-! SUPPORT. The fields of a packed word, one lemma per layout; a funct found for an operation is one that
`OPCODE_MAP` gives it; the bytes of a word make the word. -/

namespace Sys2Proof

/-- Every field of an I-format word is the one packed (rules R92, R105). -/
theorem packI_fields (code : BitVec 2) (funct : BitVec 4) (imm : Word) :
    formatField (packI code funct imm) = code ∧ functField (packI code funct imm) = funct ∧
      immField (packI code funct imm) = imm := by
  refine ⟨?_, ?_, ?_⟩ <;>
  · apply BitVec.eq_of_getLsbD_eq
    intro k hk
    simp only [formatField, functField, immField, packI, BitVec.getLsbD_extractLsb', BitVec.getLsbD_append]
    try simp only [show k < 2 from hk]
    grind

/-- Every field of a DSI-format word is the one packed (rules R93, R105). -/
theorem packDsi_fields (code : BitVec 2) (funct : BitVec 4) (d s1 : RegIdx) (imm : Word) :
    formatField (packDsi code funct d s1 imm) = code ∧ functField (packDsi code funct d s1 imm) = funct ∧
      destField (packDsi code funct d s1 imm) = d ∧ source1Field (packDsi code funct d s1 imm) = s1 ∧
      immField (packDsi code funct d s1 imm) = imm := by
  refine ⟨?_, ?_, ?_, ?_, ?_⟩ <;>
  · apply BitVec.eq_of_getLsbD_eq
    intro k hk
    simp only [formatField, functField, destField, source1Field, immField, packDsi, BitVec.getLsbD_extractLsb',
      BitVec.getLsbD_append]
    grind

/-- Every field of a DSS-format word is the one packed (rules R94, R105). -/
theorem packDss_fields (code : BitVec 2) (funct : BitVec 4) (d s1 s2 : RegIdx) :
    formatField (packDss code funct d s1 s2) = code ∧ functField (packDss code funct d s1 s2) = funct ∧
      destField (packDss code funct d s1 s2) = d ∧ source1Field (packDss code funct d s1 s2) = s1 ∧
      source2Field (packDss code funct d s1 s2) = s2 := by
  refine ⟨?_, ?_, ?_, ?_, ?_⟩ <;>
  · apply BitVec.eq_of_getLsbD_eq
    intro k hk
    simp only [formatField, functField, destField, source1Field, source2Field, packDss, BitVec.getLsbD_extractLsb',
      BitVec.getLsbD_append]
    grind

/-- A funct found for an operation is one `OPCODE_MAP` gives it (rule R104). -/
theorem functOf_sound {α : Type} [DecidableEq α] (m : BitVec 4 → Option α) (op : α) (f : BitVec 4)
    (h : functOf m op = some f) : m f = some op := by
  simpa using List.find?_some h

/-- An operation that some funct gives has a funct found for it. -/
theorem functOf_complete {α : Type} [DecidableEq α] (m : BitVec 4 → Option α) (op : α) (f : BitVec 4)
    (h : m f = some op) : (functOf m op).isSome = true := by
  unfold functOf
  rw [List.find?_isSome]
  refine ⟨f, List.mem_map.2 ⟨f.toNat, List.mem_range.2 f.isLt, by simp⟩, by simp [h]⟩

/-- The four bytes of a word make the word (rules R63, R65). -/
theorem wordOfBytes_byteOf (w : InstrWord) :
    wordOfBytes (byteOf w 0) (byteOf w 1) (byteOf w 2) (byteOf w 3) = w := by
  apply BitVec.eq_of_getLsbD_eq
  intro k hk
  simp only [wordOfBytes, byteOf, BitVec.getLsbD_append, BitVec.getLsbD_extractLsb']
  grind

/-- The bytes of a word made of four bytes (rules R63, R65). -/
theorem byteOf_wordOfBytes (b0 b1 b2 b3 : Byte) :
    byteOf (wordOfBytes b0 b1 b2 b3) 0 = b0 ∧ byteOf (wordOfBytes b0 b1 b2 b3) 1 = b1 ∧
      byteOf (wordOfBytes b0 b1 b2 b3) 2 = b2 ∧ byteOf (wordOfBytes b0 b1 b2 b3) 3 = b3 := by
  refine ⟨?_, ?_, ?_, ?_⟩ <;>
  · apply BitVec.eq_of_getLsbD_eq
    intro k hk
    simp only [wordOfBytes, byteOf, BitVec.getLsbD_append, BitVec.getLsbD_extractLsb']
    grind

/-- The default map gives each DSS operation its funct of the table (rule R104). -/
theorem defaultDssMap_funct (op : DssOp) : defaultDssMap op.funct = some op := by cases op <;> rfl

/-- The default map gives each DSI operation its funct of the table (rule R104). -/
theorem defaultDsiMap_funct (op : DsiOp) : defaultDsiMap op.funct = some op := by cases op <;> rfl

/-- The default map gives the I operation its funct of the table (rule R104). -/
theorem defaultIMap_funct (op : IOp) : defaultIMap op.funct = some op := by cases op; rfl

/-- The generic encoder at the defaults is the table's encoder. -/
theorem encodeWith_default (i : Instr) : encodeWith Config.default i = some (encode i) := by
  cases i <;> rfl

/-- Under the default parameters every instruction is well-formed. -/
theorem wellFormed_default (i : Instr) : i.wellFormed Config.default = true := by
  cases i <;> rfl

end Sys2Proof
end

