-- ==== Sys2Proof/Laws/Memory.lean ====
section
/-! SUPPORT. Memory: what each access reads after each write, and that every memory operation keeps the canonical form
(`Memory.wf`). -/

namespace Sys2Proof.Machine

/-! ### Reads after a write -/

/-- A byte written is read back, and every other address reads as before (rule R64). -/
theorem Memory.read_write (m : Memory) (a : Nat) (b : Byte) (a' : Nat) :
    Memory.read (Memory.write m a b) a' = if a' = a then some b else Memory.read m a' := by
  induction m with
  | nil => simp only [Memory.write, Memory.read, eq_comm]
  | cons e rest ih =>
    obtain ⟨k, x⟩ := e
    unfold Memory.write
    split
    · simp only [Memory.read, @eq_comm _ a a']
    · split
      · rename_i h
        subst h
        simp only [Memory.read, @eq_comm _ a a']
        split <;> rfl
      · rename_i _ hne
        simp only [Memory.read, ih]
        by_cases h1 : k = a'
        · have h2 : a' ≠ a := fun h => hne (by rw [h1, h])
          simp [h1, h2]
        · simp [h1]

/-- `writeByte` through one byte's read. -/
theorem read_writeByte (m : Memory) (a : Word) (b : Byte) (a' : Nat) :
    Memory.read (writeByte m a b) a' = if a' = a.toNat then some b else Memory.read m a' :=
  Memory.read_write m a.toNat b a'

/-- Two different addresses have different numbers. -/
theorem addr_toNat_ne {a b : Word} (h : a ≠ b) : a.toNat ≠ b.toNat := fun e => h (BitVec.eq_of_toNat_eq e)

/-- The byte after an address is another address, also at the top of memory (rule R67). -/
theorem addrAfter_one_ne (a : Word) : addrAfter a 1 ≠ a := by
  unfold addrAfter
  intro h
  have h' := congrArg BitVec.toNat h
  simp only [BitVec.toNat_add, BitVec.toNat_ofNat] at h'
  have := a.isLt
  omega

/-- `writeHalf` through one byte's read: the high byte, the low byte, or what was there. -/
theorem read_writeHalf (m : Memory) (a v : Word) (a' : Nat) :
    Memory.read (writeHalf m a v) a' =
      if a' = (addrAfter a 1).toNat then some (v.extractLsb' 8 8)
      else if a' = a.toNat then some (v.extractLsb' 0 8) else Memory.read m a' := by
  unfold writeHalf
  rw [read_writeByte, read_writeByte]

/-- `writeWord` through one byte's read. -/
theorem read_writeWord (m : Memory) (a : Word) (w : InstrWord) (a' : Nat) :
    Memory.read (writeWord m a w) a' =
      if a' = (addrAfter a 3).toNat then some (byteOf w 3)
      else if a' = (addrAfter a 2).toNat then some (byteOf w 2)
      else if a' = (addrAfter a 1).toNat then some (byteOf w 1)
      else if a' = a.toNat then some (byteOf w 0) else Memory.read m a' := by
  unfold writeWord
  rw [read_writeByte, read_writeByte, read_writeByte, read_writeByte]

/-! ### What a read answers -/

/-- `readByte` answers exactly a written byte. -/
theorem readByte_eq_ok (m : Memory) (a : Word) (b : Byte) :
    readByte m a = .ok b ↔ Memory.read m a.toNat = some b := by
  unfold readByte
  split <;> simp_all

/-- `readByte` fails only at its own address, when nothing has written it. -/
theorem readByte_eq_error (m : Memory) (a : Word) (f : Fault) :
    readByte m a = .error f ↔ Memory.read m a.toNat = none ∧ f = .unwrittenByte a := by
  unfold readByte
  cases Memory.read m a.toNat <;> simp [eq_comm]

/-- `readHalf` answers exactly two written bytes that `EDGE_WRAP` lets it reach, the low one first. -/
theorem readHalf_eq_ok (c : Config) (m : Memory) (a v : Word) :
    readHalf c m a = .ok v ↔ edgeCheck c a 2 = .ok () ∧ ∃ b0 b1, Memory.read m a.toNat = some b0 ∧
      Memory.read m (addrAfter a 1).toNat = some b1 ∧ v = b1 ++ b0 := by
  unfold readHalf readByte
  cases edgeCheck c a 2 with
  | error f => simp
  | ok u =>
    cases Memory.read m a.toNat <;> cases Memory.read m (addrAfter a 1).toNat <;> simp [eq_comm]

/-- `readWord` answers exactly four written bytes that `EDGE_WRAP` lets it reach, the lowest first. -/
theorem readWord_eq_ok (c : Config) (m : Memory) (a : Word) (w : InstrWord) :
    readWord c m a = .ok w ↔ edgeCheck c a 4 = .ok () ∧ ∃ b0 b1 b2 b3, Memory.read m a.toNat = some b0 ∧
      Memory.read m (addrAfter a 1).toNat = some b1 ∧ Memory.read m (addrAfter a 2).toNat = some b2 ∧
      Memory.read m (addrAfter a 3).toNat = some b3 ∧ w = wordOfBytes b0 b1 b2 b3 := by
  unfold readWord readByte
  cases edgeCheck c a 4 with
  | error f => simp
  | ok u =>
    cases Memory.read m a.toNat <;> cases Memory.read m (addrAfter a 1).toNat <;>
      cases Memory.read m (addrAfter a 2).toNat <;> cases Memory.read m (addrAfter a 3).toNat <;> simp [eq_comm]

/-- Under `EDGE_WRAP = wrap` no access is refused (rule R67). -/
theorem edgeCheck_wrap (c : Config) (a : Word) (n : Nat) (h : c.edgeWrap = .wrap) : edgeCheck c a n = .ok () := by
  simp [edgeCheck, h]

/-- The default parameters wrap at the edge (rule R10). -/
theorem edgeCheck_default (a : Word) (n : Nat) : edgeCheck Config.default a n = .ok () :=
  edgeCheck_wrap _ a n rfl

/-! ### The canonical form -/

/-- The canonical form, one entry at a time. -/
theorem Memory.wf_cons (a : Nat) (b : Byte) (m : Memory) :
    Memory.wf ((a, b) :: m) = true ↔
      a < 65536 ∧ (∀ e, m.head? = some e → a < e.1) ∧ Memory.wf m = true := by
  cases m with
  | nil => simp [Memory.wf]
  | cons e rest =>
    obtain ⟨a', b'⟩ := e
    simp only [Memory.wf, Bool.and_eq_true, decide_eq_true_eq, List.head?_cons, Option.some.injEq]
    constructor
    · rintro ⟨h1, h2⟩
      refine ⟨?_, fun e he => he ▸ h1, h2⟩
      have : a' < 65536 := by
        cases rest with
        | nil => simpa [Memory.wf] using h2
        | cons e rest =>
          have aux : ∀ (m : Memory) (k : Nat) (x : Byte), Memory.wf ((k, x) :: m) = true → k < 65536 := by
            intro m
            induction m with
            | nil => intro k x h; simpa [Memory.wf] using h
            | cons e m ih =>
              obtain ⟨k', x'⟩ := e
              intro k x h
              simp only [Memory.wf, Bool.and_eq_true, decide_eq_true_eq] at h
              have := ih k' x' h.2
              omega
          exact aux _ _ _ h2
      omega
    · rintro ⟨_, h1, h2⟩
      exact ⟨h1 _ rfl, h2⟩

/-- The first address of a memory after a write: the one written or the one that was first. -/
theorem Memory.head_write (m : Memory) (a : Nat) (b : Byte) (e : Host.Cell)
    (h : (Memory.write m a b).head? = some e) : e.1 = a ∨ ∃ e', m.head? = some e' ∧ e.1 = e'.1 := by
  cases m with
  | nil => simp [Memory.write] at h; exact .inl (by rw [← h])
  | cons e0 rest =>
    obtain ⟨k, x⟩ := e0
    unfold Memory.write at h
    split at h
    · simp at h; exact .inl (by rw [← h])
    · split at h
      · simp at h; exact .inl (by rw [← h])
      · simp at h; exact .inr ⟨(k, x), rfl, by rw [← h]⟩

/-- A byte write keeps the canonical form. -/
theorem Memory.write_wf (m : Memory) (a : Nat) (b : Byte) (hm : Memory.wf m = true) (ha : a < 65536) :
    Memory.wf (Memory.write m a b) = true := by
  induction m with
  | nil => simpa [Memory.write, Memory.wf] using ha
  | cons e rest ih =>
    obtain ⟨k, x⟩ := e
    have h := (Memory.wf_cons k x rest).1 hm
    unfold Memory.write
    split
    · rename_i hlt
      exact (Memory.wf_cons _ _ _).2 ⟨ha, fun e he => by simp at he; rw [← he]; exact hlt, hm⟩
    · split
      · rename_i heq
        exact (Memory.wf_cons _ _ _).2 ⟨ha, fun e he => heq ▸ h.2.1 e he, h.2.2⟩
      · rename_i hlt hne
        refine (Memory.wf_cons _ _ _).2 ⟨h.1, fun e he => ?_, ih h.2.2⟩
        rcases Memory.head_write rest a b e he with h1 | ⟨e', h1, h2⟩
        · omega
        · have := h.2.1 e' h1
          omega

theorem writeByte_wf (m : Memory) (a : Word) (b : Byte) (hm : Memory.wf m = true) :
    Memory.wf (writeByte m a b) = true := Memory.write_wf m a.toNat b hm a.isLt

theorem writeHalf_wf (m : Memory) (a v : Word) (hm : Memory.wf m = true) : Memory.wf (writeHalf m a v) = true :=
  writeByte_wf _ _ _ (writeByte_wf _ _ _ hm)

theorem writeWord_wf (m : Memory) (a : Word) (w : InstrWord) (hm : Memory.wf m = true) :
    Memory.wf (writeWord m a w) = true :=
  writeByte_wf _ _ _ (writeByte_wf _ _ _ (writeByte_wf _ _ _ (writeByte_wf _ _ _ hm)))

/-- A run of bytes inside the address space keeps the canonical form. -/
theorem storeBytes_wf (l : List Byte) (m : Memory) (a : Nat) (hm : Memory.wf m = true) (h : a + l.length ≤ 65536) :
    Memory.wf (storeBytes m a l) = true := by
  induction l generalizing m a with
  | nil => exact hm
  | cons b rest ih =>
    simp only [List.length_cons] at h
    exact ih _ _ (Memory.write_wf m a b hm (by omega)) (by omega)

/-- The memory after reset is canonical. -/
theorem reset_mem_wf : Memory.wf State.reset.mem = true := rfl

/-! ### Addresses, halfwords and loaded files -/

/-- The four bytes of an instruction stand at four different addresses, past 0xFFFF too (R67). -/
theorem addrAfter_toNat_ne (a : Word) (i j : Nat) (hi : i < 4) (hj : j < 4) (hij : i ≠ j) :
    (addrAfter a i).toNat ≠ (addrAfter a j).toNat := by
  unfold addrAfter
  simp only [BitVec.toNat_add, BitVec.toNat_ofNat]
  have := a.isLt
  omega

/-- The byte 0 after an address is the one at it. -/
@[simp] theorem addrAfter_zero (a : Word) : addrAfter a 0 = a := by simp [addrAfter]

/-- Addresses after an address add up. -/
theorem addrAfter_addrAfter (a : Word) (i j : Nat) : addrAfter (addrAfter a i) j = addrAfter a (i + j) := by
  simp [addrAfter, BitVec.add_assoc, BitVec.ofNat_add]

/-- A halfword is its high byte above its low byte (R64). -/
theorem extractLsb'_append_halves (v : Word) : v.extractLsb' 8 8 ++ v.extractLsb' 0 8 = v := by
  apply BitVec.eq_of_getLsbD_eq
  intro k hk
  simp only [BitVec.getLsbD_append, BitVec.getLsbD_extractLsb']
  grind

/-- A run of stored bytes leaves every address outside it (R82). -/
theorem read_storeBytes_outside (l : List Byte) (m : Memory) (b a : Nat) (h : a < b ∨ b + l.length ≤ a) :
    Memory.read (storeBytes m b l) a = Memory.read m a := by
  induction l generalizing m b with
  | nil => rfl
  | cons x l ih =>
    simp only [List.length_cons] at h
    rw [storeBytes, ih _ _ (by omega), Memory.read_write, if_neg (by omega)]

/-- Byte `k` of a run stored from `b` stands at `b + k` (R82). -/
theorem read_storeBytes_inside (l : List Byte) (m : Memory) (b k : Nat) (h : k < l.length) :
    Memory.read (storeBytes m b l) (b + k) = some l[k] := by
  induction l generalizing m b k with
  | nil => simp at h
  | cons x l ih =>
    cases k with
    | zero => rw [storeBytes, read_storeBytes_outside _ _ _ _ (by omega), Memory.read_write]; simp
    | succ k =>
      rw [storeBytes, show b + (k + 1) = b + 1 + k by omega, ih _ (b + 1) k (by simpa using h)]
      simp

end Sys2Proof.Machine
end

