-- ==== Sys2Proof/Laws/State.lean ====
section
/-! SUPPORT. The fields of a state after each named update, and what a register read gives after each. No later proof
unfolds a record update. -/

namespace Sys2Proof.Machine

@[simp] theorem State.setPc_regs (s : State) (v : Word) : (s.setPc v).regs = s.regs := rfl
@[simp] theorem State.setPc_pc (s : State) (v : Word) : (s.setPc v).pc = v := rfl
@[simp] theorem State.setPc_halted (s : State) (v : Word) : (s.setPc v).halted = s.halted := rfl
@[simp] theorem State.setPc_cycle (s : State) (v : Word) : (s.setPc v).cycle = s.cycle := rfl
@[simp] theorem State.setPc_mem (s : State) (v : Word) : (s.setPc v).mem = s.mem := rfl
@[simp] theorem State.setPc_readReg (s : State) (v : Word) (i : RegIdx) : (s.setPc v).readReg i = s.readReg i := rfl

@[simp] theorem State.setHalted_regs (s : State) (b : Bool) : (s.setHalted b).regs = s.regs := rfl
@[simp] theorem State.setHalted_pc (s : State) (b : Bool) : (s.setHalted b).pc = s.pc := rfl
@[simp] theorem State.setHalted_halted (s : State) (b : Bool) : (s.setHalted b).halted = b := rfl
@[simp] theorem State.setHalted_cycle (s : State) (b : Bool) : (s.setHalted b).cycle = s.cycle := rfl
@[simp] theorem State.setHalted_mem (s : State) (b : Bool) : (s.setHalted b).mem = s.mem := rfl
@[simp] theorem State.setHalted_readReg (s : State) (b : Bool) (i : RegIdx) : (s.setHalted b).readReg i = s.readReg i := rfl

@[simp] theorem State.setCycle_regs (s : State) (v : Word) : (s.setCycle v).regs = s.regs := rfl
@[simp] theorem State.setCycle_pc (s : State) (v : Word) : (s.setCycle v).pc = s.pc := rfl
@[simp] theorem State.setCycle_halted (s : State) (v : Word) : (s.setCycle v).halted = s.halted := rfl
@[simp] theorem State.setCycle_cycle (s : State) (v : Word) : (s.setCycle v).cycle = v := rfl
@[simp] theorem State.setCycle_mem (s : State) (v : Word) : (s.setCycle v).mem = s.mem := rfl
@[simp] theorem State.setCycle_readReg (s : State) (v : Word) (i : RegIdx) : (s.setCycle v).readReg i = s.readReg i := rfl

@[simp] theorem State.setMem_regs (s : State) (m : Memory) : (s.setMem m).regs = s.regs := rfl
@[simp] theorem State.setMem_pc (s : State) (m : Memory) : (s.setMem m).pc = s.pc := rfl
@[simp] theorem State.setMem_halted (s : State) (m : Memory) : (s.setMem m).halted = s.halted := rfl
@[simp] theorem State.setMem_cycle (s : State) (m : Memory) : (s.setMem m).cycle = s.cycle := rfl
@[simp] theorem State.setMem_mem (s : State) (m : Memory) : (s.setMem m).mem = m := rfl
@[simp] theorem State.setMem_readReg (s : State) (m : Memory) (i : RegIdx) : (s.setMem m).readReg i = s.readReg i := rfl

@[simp] theorem State.writeReg_pc (s : State) (i : RegIdx) (v : Word) : (s.writeReg i v).pc = s.pc := by
  unfold State.writeReg; split <;> rfl
@[simp] theorem State.writeReg_halted (s : State) (i : RegIdx) (v : Word) : (s.writeReg i v).halted = s.halted := by
  unfold State.writeReg; split <;> rfl
@[simp] theorem State.writeReg_cycle (s : State) (i : RegIdx) (v : Word) : (s.writeReg i v).cycle = s.cycle := by
  unfold State.writeReg; split <;> rfl
@[simp] theorem State.writeReg_mem (s : State) (i : RegIdx) (v : Word) : (s.writeReg i v).mem = s.mem := by
  unfold State.writeReg; split <;> rfl

/-- Register 0 reads 0 in every state (rule R31). -/
@[simp] theorem State.readReg_zero (s : State) : s.readReg 0#5 = 0#16 := rfl

/-- A write of register 0 is no write (rule R31). -/
@[simp] theorem State.writeReg_zero (s : State) (v : Word) : s.writeReg 0#5 v = s := rfl

/-- A read of any other register. -/
theorem State.readReg_of_ne (s : State) (i : RegIdx) (h : i ≠ 0) : s.readReg i = s.regs[i.toNat] := if_neg h

/-- A write of any other register. -/
theorem State.writeReg_of_ne (s : State) (i : RegIdx) (v : Word) (h : i ≠ 0) :
    s.writeReg i v = { s with regs := s.regs.set i.toNat v } := if_neg h

/-- A register write is read back at its index, unless that is register 0, and nowhere else (rule R31). -/
theorem State.readReg_writeReg (s : State) (i j : RegIdx) (v : Word) :
    (s.writeReg i v).readReg j = if j = i ∧ i ≠ 0 then v else s.readReg j := by
  by_cases hi : i = 0
  · subst hi
    rw [if_neg (fun h => h.2 rfl)]
    rfl
  · rw [State.writeReg_of_ne s i v hi]
    by_cases hj : j = 0
    · subst hj
      rw [if_neg (fun h => hi h.1.symm)]
      rfl
    · rw [State.readReg_of_ne _ j hj, State.readReg_of_ne s j hj]
      by_cases hij : j = i
      · subst hij
        rw [if_pos ⟨rfl, hi⟩]
        exact Vector.getElem_set_self j.isLt
      · rw [if_neg (fun h => hij h.1)]
        exact Vector.getElem_set_ne i.isLt j.isLt (fun h => hij (BitVec.eq_of_toNat_eq h.symm))

/-- The slot of register 0 is written by nothing. -/
theorem State.writeReg_slot_zero (s : State) (i : RegIdx) (v : Word) : (s.writeReg i v).regs[0] = s.regs[0] := by
  by_cases hi : i = 0
  · subst hi
    rfl
  · rw [State.writeReg_of_ne s i v hi]
    exact Vector.getElem_set_ne i.isLt (by decide) (fun h => hi (BitVec.eq_of_toNat_eq h))

@[simp] theorem State.applyReg_pc (s : State) (r : Option (RegIdx × Word)) : (s.applyReg r).pc = s.pc := by
  cases r <;> simp [State.applyReg]
@[simp] theorem State.applyReg_halted (s : State) (r : Option (RegIdx × Word)) : (s.applyReg r).halted = s.halted := by
  cases r <;> simp [State.applyReg]
@[simp] theorem State.applyReg_cycle (s : State) (r : Option (RegIdx × Word)) : (s.applyReg r).cycle = s.cycle := by
  cases r <;> simp [State.applyReg]
@[simp] theorem State.applyReg_mem (s : State) (r : Option (RegIdx × Word)) : (s.applyReg r).mem = s.mem := by
  cases r <;> simp [State.applyReg]
@[simp] theorem State.applyReg_none (s : State) : s.applyReg none = s := rfl
@[simp] theorem State.applyReg_some (s : State) (i : RegIdx) (v : Word) : s.applyReg (some (i, v)) = s.writeReg i v := rfl

@[simp] theorem State.applyMem_regs (s : State) (r : Option (Word × Word)) : (s.applyMem r).regs = s.regs := by
  cases r <;> rfl
@[simp] theorem State.applyMem_pc (s : State) (r : Option (Word × Word)) : (s.applyMem r).pc = s.pc := by
  cases r <;> rfl
@[simp] theorem State.applyMem_halted (s : State) (r : Option (Word × Word)) : (s.applyMem r).halted = s.halted := by
  cases r <;> rfl
@[simp] theorem State.applyMem_cycle (s : State) (r : Option (Word × Word)) : (s.applyMem r).cycle = s.cycle := by
  cases r <;> rfl
@[simp] theorem State.applyMem_readReg (s : State) (r : Option (Word × Word)) (i : RegIdx) :
    (s.applyMem r).readReg i = s.readReg i := by cases r <;> rfl
@[simp] theorem State.applyMem_none (s : State) : s.applyMem none = s := rfl
@[simp] theorem State.applyMem_some (s : State) (a v : Word) :
    s.applyMem (some (a, v)) = s.setMem (writeHalf s.mem a v) := rfl

end Sys2Proof.Machine
end

