-- ==== Sys2Proof/Laws/Engine.lean ====
section
/-! SUPPORT. What the shared operations of the engine can do, said once: the commit of an effect, the end of an
operation, the fetch, the tick; and that the fixed names are the engine at the default parameters. -/

namespace Sys2Proof.Machine

/-- `exec` is the engine's execution at the defaults. -/
theorem exec_eq_execWith (i : Instr) (s : State) : exec i s = execWith Config.default i s := by
  cases i <;> rfl

/-- `step` is the engine's tick at the defaults. -/
theorem step_eq_tickWith (s : State) : step s = tickWith Config.default s := by
  unfold step tickWith
  congr 1
  funext i t
  exact exec_eq_execWith i t

/-- `State.reset` is `assert_reset` of a fresh engine whose unspecified values are those of log entry 2. -/
theorem reset_eq_assertReset :
    State.reset = assertReset Config.default
      (State.create { regs := Vector.replicate 32 0, pc := 0, halted := false, cycle := 0 }) := by decide

/-- An operation's end is a next state exactly when it has an effect, and the state is that effect's commit. -/
theorem finish_eq_next (c : Config) (r : Effected) (s t : State) :
    finish c r s = .next t ↔ ∃ e, r = .ok e ∧ t = commit c e s := by
  cases r <;> simp [finish, raise, eq_comm]

/-- An operation's end is a fault exactly when it raised it. -/
theorem finish_eq_fault (c : Config) (r : Effected) (s : State) (f : Fault) :
    finish c r s = .fault f ↔ r = .error f := by
  cases r <;> simp [finish, raise]

/-- An operation's end is never a refusal. -/
theorem finish_ne_refused (c : Config) (r : Effected) (s : State) (q : Refusal) : finish c r s ≠ .refused q := by
  cases r <;> simp [finish, raise]

/-- The commit of a halt (rule R146). -/
theorem commit_halt (c : Config) (e : Effect) (s : State) (h : e.halt = true) :
    commit c e s = (s.setHalted true).setCycle (if c.haltCountsCycle then s.cycle + 1 else s.cycle) := by
  simp [commit, h]

/-- The commit of any other effect (rule R144). -/
theorem commit_run (c : Config) (e : Effect) (s : State) (h : e.halt = false) :
    commit c e s = (((s.applyReg e.reg).applyMem e.mem).setPc (nextPc s.pc e.jump)).setCycle (s.cycle + 1) := by
  simp [commit, h]

/-- What `writesReg` commits: the register, pc + 4 and one cycle. -/
theorem commit_writesReg (c : Config) (d : RegIdx) (v : Word) (s : State) :
    finish c (writesReg d v) s = .next (((s.writeReg d v).setPc (s.pc + 4)).setCycle (s.cycle + 1)) := rfl

/-- A store's end: the `EDGE_WRAP` failure, or the halfword written, pc + 4 and one cycle. -/
theorem finish_storeHalf (c : Config) (d : RegIdx) (ea : Word) (s : State) :
    finish c (storeHalf c d ea s) s =
      match edgeCheck c ea 2 with
      | .error f => .fault f
      | .ok _ => .next (((s.setMem (writeHalf s.mem ea (s.readReg d))).setPc (s.pc + 4)).setCycle (s.cycle + 1)) := by
  unfold storeHalf
  cases edgeCheck c ea 2 <;> rfl

/-- A load's end: the read's failure, or the halfword in its register, pc + 4 and one cycle. -/
theorem finish_loadHalf (c : Config) (d : RegIdx) (ea : Word) (s : State) :
    finish c (loadHalf c d ea s) s =
      match readHalf c s.mem ea with
      | .error f => .fault f
      | .ok v => .next (((s.writeReg d v).setPc (s.pc + 4)).setCycle (s.cycle + 1)) := by
  unfold loadHalf
  cases readHalf c s.mem ea <;> rfl

/-- A jump's end: the link, the target and one cycle, or pc + 4 and one cycle. -/
theorem finish_jumpAndLink (c : Config) (taken : Bool) (d : RegIdx) (target : Word) (s : State) :
    finish c (jumpAndLink taken d target s) s =
      .next (if taken then ((s.writeReg d (s.pc + 4)).setPc target).setCycle (s.cycle + 1)
        else (s.setPc (s.pc + 4)).setCycle (s.cycle + 1)) := by
  cases taken <;> rfl

/-- Under the defaults the fetch is the read of the four bytes at pc (rule R141). -/
theorem fetch_default (s : State) : fetch Config.default s = readWord Config.default s.mem s.pc := rfl

/-- A fetch depends on pc and memory alone. -/
theorem fetch_congr (c : Config) (s t : State) (hp : t.pc = s.pc) (hm : t.mem = s.mem) : fetch c t = fetch c s := by
  simp [fetch, hp, hm]

/-- Everything a tick can answer (rules R144, R312): the engine was halted; the fetch failed; the word was invalid;
or the instruction was executed. -/
theorem tickAround_cases (c : Config) (ex : Instr → State → Answer) (s : State) :
    (s.halted = true ∧ tickAround c ex s = .next s) ∨
    (s.halted = false ∧ ∃ f, fetch c s = .error f ∧ tickAround c ex s = .fault f) ∨
    (s.halted = false ∧ ∃ w r, fetch c s = .ok w ∧ decodeWith c w = .error r ∧
      tickAround c ex s = .fault (.invalidInstruction w)) ∨
    (s.halted = false ∧ ∃ w i, fetch c s = .ok w ∧ decodeWith c w = .ok i ∧ tickAround c ex s = ex i s) := by
  unfold tickAround
  cases hh : s.halted with
  | true => exact .inl ⟨rfl, by simp⟩
  | false =>
    cases hf : fetch c s with
    | error f => exact .inr (.inl ⟨rfl, f, rfl, by simp [raise]⟩)
    | ok w =>
      cases hd : decodeWith c w with
      | error r => exact .inr (.inr (.inl ⟨rfl, w, r, rfl, hd, by simp [hd, raise]⟩))
      | ok i => exact .inr (.inr (.inr ⟨rfl, w, i, rfl, hd, by simp [hd]⟩))

end Sys2Proof.Machine
end

