-- ==== Sys2Proof/Laws/Effects.lean ====
section
/-! SUPPORT. What an effect can be, said once over the 28 instructions (40_engine.md R148, R149), and what the shift of
rule R220 and the check of rule R67 answer. Proofs cite these instead of unfolding `effectOf`. -/

namespace Sys2Proof.Machine

/-- What each instruction's effect is made of: a register write of a computed value, a load, a store, a conditional
jump-and-link, or the stop. -/
inductive EffectShape (c : Config) (i : Instr) (s : State) : Effected → Prop
  | write (d : RegIdx) (v : Word) : writtenReg i = some d → isJump i = false → (∀ imm, i ≠ .halt imm) →
      storeAddress i s = none → EffectShape c i s (writesReg d v)
  | load (d : RegIdx) (ea : Word) : writtenReg i = some d → isJump i = false → (∀ imm, i ≠ .halt imm) →
      storeAddress i s = none →
      ((∃ s1 imm, i = .lh d s1 imm ∧ ea = eaImm s s1 imm) ∨ (∃ s1 s2, i = .lhx d s1 s2 ∧ ea = eaIndex s s1 s2)) →
      EffectShape c i s (loadHalf c d ea s)
  | store (d : RegIdx) (ea : Word) : isJump i = false → (∀ imm, i ≠ .halt imm) → storeAddress i s = some ea →
      EffectShape c i s (storeHalf c d ea s)
  | jump (taken : Bool) (d : RegIdx) (target : Word) : writtenReg i = some d → isJump i = true →
      (∀ imm, i ≠ .halt imm) → storeAddress i s = none → EffectShape c i s (jumpAndLink taken d target s)
  | stop (imm : Word) : i = .halt imm → EffectShape c i s halts

/-- Every instruction's effect has one of the five shapes. -/
theorem effectOf_shape (c : Config) (i : Instr) (s : State) : EffectShape c i s (effectOf c i s) := by
  cases i with
  | halt imm => exact .stop imm rfl
  | lh d s1 imm => exact .load _ _ rfl rfl (by intros; simp) rfl (.inl ⟨_, _, rfl, rfl⟩)
  | lhx d s1 s2 => exact .load _ _ rfl rfl (by intros; simp) rfl (.inr ⟨_, _, rfl, rfl⟩)
  | sh => exact .store _ _ rfl (by intros; simp) rfl
  | shx => exact .store _ _ rfl (by intros; simp) rfl
  | jlz => exact .jump _ _ _ rfl rfl (by intros; simp) rfl
  | jlo => exact .jump _ _ _ rfl rfl (by intros; simp) rfl
  | jlrz => exact .jump _ _ _ rfl rfl (by intros; simp) rfl
  | jlro => exact .jump _ _ _ rfl rfl (by intros; simp) rfl
  | _ => exact .write _ _ rfl rfl (by intros; simp) rfl

/-- An instruction that completes: its effect was defined, and the next state is its commit (R144). -/
theorem execWith_eq_next (c : Config) (i : Instr) (s t : State) :
    execWith c i s = .next t ↔ ∃ e, effectOf c i s = .ok e ∧ t = commit c e s := finish_eq_next _ _ _ _

/-- No effect depends on the reset/halt flag (R41). -/
theorem effectOf_setHalted (c : Config) (i : Instr) (s : State) (b : Bool) :
    effectOf c i (s.setHalted b) = effectOf c i s := by cases i <;> rfl

/-- No effect depends on the cycle counter (R44). -/
theorem effectOf_setCycle (c : Config) (i : Instr) (s : State) (v : Word) :
    effectOf c i (s.setCycle v) = effectOf c i s := by cases i <;> rfl

/-- The check of rule R67 passes exactly where the access wraps by rule or stays inside the 64 KiB. -/
theorem edgeCheck_eq_ok (c : Config) (a : Word) (n : Nat) :
    edgeCheck c a n = .ok () ↔ c.edgeWrap = .wrap ∨ a.toNat + n ≤ 65536 := by
  unfold edgeCheck
  split
  · simp [*]
  · rename_i h
    split <;> simp [*]

/-- A shift under `SHIFT_AMOUNT_RULE = full` (R220). -/
theorem shift_full (c : Config) (k : ShiftKind) (v n : Word) (h : c.shiftAmount = .full) :
    shift c k v n = shiftFull k v n.toNat := by simp [shift, h]

/-- A shift under `SHIFT_AMOUNT_RULE = mod16` (R220). -/
theorem shift_mod16 (c : Config) (k : ShiftKind) (v n : Word) (h : c.shiftAmount = .mod16) :
    shift c k v n = shiftFull k v (n.toNat % 16) := by simp [shift, h]

/-- A shift under `SHIFT_AMOUNT_RULE = draw` (R220). -/
theorem shift_draw (c : Config) (k : ShiftKind) (v n : Word) (h : c.shiftAmount = .draw) :
    shift c k v n = if n.toNat < 16 then shiftFull k v n.toNat else Config.shiftDraw k v n := by simp [shift, h]

end Sys2Proof.Machine
end

