-- ==== Sys2Proof/Laws/PerInstr.lean ====
section
/-! SUPPORT. The family `Opcode`, one lemma per constructor: the low six bits of an instruction's word are the opcode
that the table of 30_encoding.md R104 gives it. -/

namespace Sys2Proof.Laws

/-- The low six bits of a DSS word are its funct and format. -/
theorem opcodeField_packDss (code : BitVec 2) (funct : BitVec 4) (d s1 s2 : RegIdx) :
    opcodeField (packDss code funct d s1 s2) = funct ++ code := by
  apply BitVec.eq_of_getLsbD_eq
  intro k hk
  simp only [opcodeField, packDss, BitVec.getLsbD_extractLsb', BitVec.getLsbD_append]
  grind

/-- The low six bits of a DSI word are its funct and format. -/
theorem opcodeField_packDsi (code : BitVec 2) (funct : BitVec 4) (d s1 : RegIdx) (imm : Word) :
    opcodeField (packDsi code funct d s1 imm) = funct ++ code := by
  apply BitVec.eq_of_getLsbD_eq
  intro k hk
  simp only [opcodeField, packDsi, BitVec.getLsbD_extractLsb', BitVec.getLsbD_append]
  grind

/-- The low six bits of an I word are its funct and format. -/
theorem opcodeField_packI (code : BitVec 2) (funct : BitVec 4) (imm : Word) :
    opcodeField (packI code funct imm) = funct ++ code := by
  apply BitVec.eq_of_getLsbD_eq
  intro k hk
  simp only [opcodeField, packI, BitVec.getLsbD_extractLsb', BitVec.getLsbD_append]
  grind

namespace Opcode

/-- The low six bits of the instruction's word are its opcode. -/
def Statement (i : Instr) : Prop := opcodeField (encode i) = i.opcode

theorem add (d s1 s2 : RegIdx) : Statement (.add d s1 s2) := opcodeField_packDss _ _ d s1 s2
theorem sub (d s1 s2 : RegIdx) : Statement (.sub d s1 s2) := opcodeField_packDss _ _ d s1 s2
theorem and (d s1 s2 : RegIdx) : Statement (.and d s1 s2) := opcodeField_packDss _ _ d s1 s2
theorem or (d s1 s2 : RegIdx) : Statement (.or d s1 s2) := opcodeField_packDss _ _ d s1 s2
theorem xor (d s1 s2 : RegIdx) : Statement (.xor d s1 s2) := opcodeField_packDss _ _ d s1 s2
theorem sll (d s1 s2 : RegIdx) : Statement (.sll d s1 s2) := opcodeField_packDss _ _ d s1 s2
theorem srl (d s1 s2 : RegIdx) : Statement (.srl d s1 s2) := opcodeField_packDss _ _ d s1 s2
theorem sra (d s1 s2 : RegIdx) : Statement (.sra d s1 s2) := opcodeField_packDss _ _ d s1 s2
theorem slt (d s1 s2 : RegIdx) : Statement (.slt d s1 s2) := opcodeField_packDss _ _ d s1 s2
theorem sltu (d s1 s2 : RegIdx) : Statement (.sltu d s1 s2) := opcodeField_packDss _ _ d s1 s2
theorem lhx (d s1 s2 : RegIdx) : Statement (.lhx d s1 s2) := opcodeField_packDss _ _ d s1 s2
theorem shx (d s1 s2 : RegIdx) : Statement (.shx d s1 s2) := opcodeField_packDss _ _ d s1 s2
theorem jlrz (d s1 s2 : RegIdx) : Statement (.jlrz d s1 s2) := opcodeField_packDss _ _ d s1 s2
theorem jlro (d s1 s2 : RegIdx) : Statement (.jlro d s1 s2) := opcodeField_packDss _ _ d s1 s2
theorem addi (d s1 : RegIdx) (imm : Word) : Statement (.addi d s1 imm) := opcodeField_packDsi _ _ d s1 imm
theorem andi (d s1 : RegIdx) (imm : Word) : Statement (.andi d s1 imm) := opcodeField_packDsi _ _ d s1 imm
theorem ori (d s1 : RegIdx) (imm : Word) : Statement (.ori d s1 imm) := opcodeField_packDsi _ _ d s1 imm
theorem xori (d s1 : RegIdx) (imm : Word) : Statement (.xori d s1 imm) := opcodeField_packDsi _ _ d s1 imm
theorem slli (d s1 : RegIdx) (imm : Word) : Statement (.slli d s1 imm) := opcodeField_packDsi _ _ d s1 imm
theorem srli (d s1 : RegIdx) (imm : Word) : Statement (.srli d s1 imm) := opcodeField_packDsi _ _ d s1 imm
theorem srai (d s1 : RegIdx) (imm : Word) : Statement (.srai d s1 imm) := opcodeField_packDsi _ _ d s1 imm
theorem slti (d s1 : RegIdx) (imm : Word) : Statement (.slti d s1 imm) := opcodeField_packDsi _ _ d s1 imm
theorem sltiu (d s1 : RegIdx) (imm : Word) : Statement (.sltiu d s1 imm) := opcodeField_packDsi _ _ d s1 imm
theorem lh (d s1 : RegIdx) (imm : Word) : Statement (.lh d s1 imm) := opcodeField_packDsi _ _ d s1 imm
theorem sh (d s1 : RegIdx) (imm : Word) : Statement (.sh d s1 imm) := opcodeField_packDsi _ _ d s1 imm
theorem jlz (d s1 : RegIdx) (imm : Word) : Statement (.jlz d s1 imm) := opcodeField_packDsi _ _ d s1 imm
theorem jlo (d s1 : RegIdx) (imm : Word) : Statement (.jlo d s1 imm) := opcodeField_packDsi _ _ d s1 imm
theorem halt (imm : Word) : Statement (.halt imm) := opcodeField_packI _ _ imm

end Opcode

end Sys2Proof.Laws
end

