-- ==== Sys2Proof/Tests/Slice0.lean ====
section
/-! SUPPORT. Tests: the checks of WellFormed and Decode, a word and a step for every instruction (the expected values are
those of spec/95_test_vectors.md and of the examples in 41_arithmetic.md to 47_halt.md), the parameters, the boundary, the
assembler, and for every obligation with hypotheses a state and operands that meet them. -/

namespace Sys2Proof.Tests

open Sys2Proof Sys2Proof.Machine

/-! ### Helpers -/

/-- A running engine at 0x0100 with cycle 5, registers as listed and bytes as listed. -/
def running (regs : List (RegIdx × Word)) (bytes : List (Nat × Byte)) : State :=
  (regs.foldl (fun s p => s.writeReg p.1 p.2)
    { State.reset with halted := false, cycle := 5, mem := bytes.foldl (fun m p => Memory.write m p.1 p.2) [] })

/-- The running engine with a word at pc. -/
def placed (w : Nat) (regs : List (RegIdx × Word)) (bytes : List (Nat × Byte)) : State :=
  (running regs bytes).withFetchWord 32 w

/-- One step from there. -/
def stepOf (w : Nat) (regs : List (RegIdx × Word)) (bytes : List (Nat × Byte)) : Answer := step (placed w regs bytes)

/-- A register, pc and cycle after a step that completed. -/
def seen (a : Answer) (i : RegIdx) : Option (Word × Word × Word) :=
  match a with
  | .next t => some (t.readReg i, t.pc, t.cycle)
  | .fault _ => none
  | .refused _ => none

/-- Two bytes of memory and pc after a step that completed. -/
def seenBytes (a : Answer) (x y : Nat) : Option (Option Byte × Option Byte × Word) :=
  match a with
  | .next t => some (Memory.read t.mem x, Memory.read t.mem y, t.pc)
  | .fault _ => none
  | .refused _ => none

/-! ### WellFormed -/

/-- Every check passes at the defaults. -/
theorem test_wellFormed_default : Config.default.wellFormed = true ∧ (Instr.sub 1 2 3).wellFormed Config.default = true := by
  decide

/-- ILL-FORMED: `sub` is class C, so the attested map gives it no opcode (R103); `add` is class A. -/
theorem test_wellFormed_refuses_unmapped :
    (Instr.sub 1 2 3).wellFormed Config.default.attested = false ∧
      (Instr.add 1 2 3).wellFormed Config.default.attested = true ∧
      (Instr.slti 1 2 3).wellFormed Config.default.attested = false ∧
      (Instr.halt 0).wellFormed { Config.default with iMap := fun _ => none } = false := by decide

/-- ILL-FORMED: format codes that are not injective (R95), each pair of layouts once. -/
theorem test_wellFormed_refuses_clashing_codes :
    ({ Config.default with formatCode := fun _ => 1 } : Config).wellFormed = false ∧
      ({ Config.default with formatCode := fun l => if l = .i then 2 else 1 } : Config).wellFormed = false ∧
      ({ Config.default with formatCode := fun l => if l = .dsi then 2 else 1 } : Config).wellFormed = false ∧
      ({ Config.default with formatCode := fun l => if l = .dss then 2 else 1 } : Config).wellFormed = false := by decide

/-! ### Decode: a word of each instruction, from the encodings of R92 to R94 and R104 -/

/-- One word of each layout written out field by field: reserved, source2, source1, dest, funct, format for DSS;
immediate, source1, dest, funct, format for DSI; immediate, reserved, funct, format for I. -/
theorem test_decode_bit_by_bit :
    decodeTableWord 32 0b00000000000_01101_01100_01011_0000_01 = some (.add 11 12 13) ∧
      decodeTableWord 32 0b00000000000_00010_10101_11111_1101_01 = some (.jlro 31 21 2) ∧
      decodeTableWord 32 0b1111111111111110_01100_01011_1010_10 = some (.sh 11 12 0xFFFE) ∧
      decodeTableWord 32 0b0000000100010000_10000_00000_1100_10 = some (.jlo 0 16 0x0110) ∧
      decodeTableWord 32 0b0000000011111111_01100_01011_0001_10 = some (.andi 11 12 0x00FF) ∧
      decodeTableWord 32 0b0000000000000100_01100_01011_0100_10 = some (.slli 11 12 4) ∧
      decodeTableWord 32 0b1111111111111111_01100_01011_0111_10 = some (.slti 11 12 0xFFFF) ∧
      decodeTableWord 32 0b1111111111111111_0000000000_0000_11 = some (.halt 0xFFFF) := by decide

theorem test_decode_arithmetic :
    decodeTableWord 32 0x000D62C1 = some (.add 11 12 13) ∧ decodeTableWord 32 0x000D62C5 = some (.sub 11 12 13) ∧
      decodeTableWord 32 0xFFFF02C2 = some (.addi 11 0 0xFFFF) := by decide

theorem test_decode_logic :
    decodeTableWord 32 0x000D62C9 = some (.and 11 12 13) ∧ decodeTableWord 32 0x000D62CD = some (.or 11 12 13) ∧
      decodeTableWord 32 0x000D62D1 = some (.xor 11 12 13) ∧ decodeTableWord 32 0x00FF62C6 = some (.andi 11 12 0x00FF) ∧
      decodeTableWord 32 0x000500CA = some (.ori 3 0 5) ∧ decodeTableWord 32 0xFFFF62CE = some (.xori 11 12 0xFFFF) := by
  decide

theorem test_decode_shift :
    decodeTableWord 32 0x000D62D5 = some (.sll 11 12 13) ∧ decodeTableWord 32 0x000D62D9 = some (.srl 11 12 13) ∧
      decodeTableWord 32 0x000D62DD = some (.sra 11 12 13) ∧ decodeTableWord 32 0x000462D2 = some (.slli 11 12 4) ∧
      decodeTableWord 32 0x00015B16 = some (.srli 12 11 1) ∧ decodeTableWord 32 0x00015B1A = some (.srai 12 11 1) := by
  decide

theorem test_decode_compare :
    decodeTableWord 32 0x000D62E1 = some (.slt 11 12 13) ∧ decodeTableWord 32 0x000D62E5 = some (.sltu 11 12 13) ∧
      decodeTableWord 32 0xFFFF62DE = some (.slti 11 12 0xFFFF) ∧
      decodeTableWord 32 0xFFFF62E2 = some (.sltiu 11 12 0xFFFF) := by decide

theorem test_decode_loadstore :
    decodeTableWord 32 0x000262E6 = some (.lh 11 12 2) ∧ decodeTableWord 32 0xFFFE62EA = some (.sh 11 12 0xFFFE) ∧
      decodeTableWord 32 0x000D62E9 = some (.lhx 11 12 13) ∧ decodeTableWord 32 0x000D62ED = some (.shx 11 12 13) := by
  decide

theorem test_decode_jump :
    decodeTableWord 32 0x0200006E = some (.jlz 1 0 0x0200) ∧ decodeTableWord 32 0x02005872 = some (.jlo 1 11 0x0200) ∧
      decodeTableWord 32 0x00010031 = some (.jlrz 0 0 1) ∧ decodeTableWord 32 0x000C5875 = some (.jlro 1 11 12) := by
  decide

theorem test_decode_halt :
    decodeTableWord 32 0x00000003 = some (.halt 0) ∧ decodeTableWord 32 0xFFFF0003 = some (.halt 0xFFFF) := by decide

/-- E7 and R105: words of the extreme operands, written and read. -/
theorem test_encode_extremes :
    encode (.sltu 31 31 31) = 0x001FFFE5 ∧ encode (.xori 31 31 0xFFFF) = 0xFFFFFFCE ∧ encode (.add 0 0 0) = 0x00000001 ∧
      encode (.add 3 3 4) = 0x000418C1 ∧ encodeBytes (.add 3 3 4) = [0xC1, 0x18, 0x04, 0x00] := by decide

/-- R101: reserved bits are ignored; R106: invalid words are refused by name, and so are three bytes. -/
theorem test_decode_reserved_and_invalid :
    decodeTableWord 32 0xFFED62C1 = some (.add 11 12 13) ∧ decodeTableWord 32 0x0000FFC3 = some (.halt 0) ∧
      decodeTableWord 32 0x00000000 = none ∧ decodeTableWord 32 0x0000000C = none ∧ decodeTableWord 32 0x00000007 = none ∧
      decodeTableWord 32 0x0000003F = none ∧ decodeTableWord 32 0x00000036 = none ∧ decodeTableWord 32 0x0000003A = none ∧
      decodeTableWord 32 0x0000003E = none ∧ decodeTableWord 32 0x00000039 = none ∧
      decodeTableWord 32 0x0000003D = none := by decide

theorem test_decode_names_its_reason :
    decode 0x00000000 = .error (.noLayout 0x00000000) ∧ decode 0x00000039 = .error (.unmapped 0x00000039) ∧
      decodeBytes [0xC1, 0x62, 0x0D] = .error .tooShort := ⟨rfl, rfl, rfl⟩

/-! ### One step of each instruction (95_test_vectors.md section 2) -/

theorem test_add :
    seen (stepOf 0x000D62C1 [(12, 0xFFFF), (13, 0x0002)] []) 11 = some (0x0001, 0x0104, 6) ∧
      seen (stepOf 0x000C6301 [(12, 0x8000)] []) 12 = some (0x0000, 0x0104, 6) := by decide

theorem test_sub :
    seen (stepOf 0x000D62C5 [(12, 0x0000), (13, 0x0001)] []) 11 = some (0xFFFF, 0x0104, 6) ∧
      seen (stepOf 0x000D62C5 [(12, 0x8000), (13, 0x0001)] []) 11 = some (0x7FFF, 0x0104, 6) := by decide

theorem test_addi :
    seen (stepOf 0xFFFF02C2 [] []) 11 = some (0xFFFF, 0x0104, 6) ∧
      seen (stepOf 0x12340002 [] []) 0 = some (0x0000, 0x0104, 6) := by decide

theorem test_and : seen (stepOf 0x000D62C9 [(12, 0xF0F0), (13, 0x3C3C)] []) 11 = some (0x3030, 0x0104, 6) := by decide

theorem test_or :
    seen (stepOf 0x000D62CD [(12, 0xF0F0), (13, 0x3C3C)] []) 11 = some (0xFCFC, 0x0104, 6) ∧
      seen (stepOf 0x000062CD [(12, 0x8001)] []) 11 = some (0x8001, 0x0104, 6) := by decide

theorem test_xor : seen (stepOf 0x000D62D1 [(12, 0xF0F0), (13, 0x3C3C)] []) 11 = some (0xCCCC, 0x0104, 6) := by decide

theorem test_andi :
    seen (stepOf 0x00FF62C6 [(12, 0x1234)] []) 11 = some (0x0034, 0x0104, 6) ∧
      seen (stepOf 0x800062C6 [(12, 0xC001)] []) 11 = some (0x8000, 0x0104, 6) := by decide

theorem test_ori :
    seen (stepOf 0xFFFF02CA [] []) 11 = some (0xFFFF, 0x0104, 6) ∧
      seen (stepOf 0x00F062CA [(12, 0x0F00)] []) 11 = some (0x0FF0, 0x0104, 6) := by decide

theorem test_xori : seen (stepOf 0xFFFF62CE [(12, 0x1234)] []) 11 = some (0xEDCB, 0x0104, 6) := by decide

theorem test_sll :
    seen (stepOf 0x000D62D5 [(12, 0x0001), (13, 0x000F)] []) 11 = some (0x8000, 0x0104, 6) ∧
      seen (stepOf 0x000D62D5 [(12, 0x0001), (13, 0x0010)] []) 11 = some (0x0000, 0x0104, 6) := by decide

theorem test_srl :
    seen (stepOf 0x000D62D9 [(12, 0x8000), (13, 0x000F)] []) 11 = some (0x0001, 0x0104, 6) ∧
      seen (stepOf 0x000D62D9 [(12, 0xFFFF), (13, 0xFFFF)] []) 11 = some (0x0000, 0x0104, 6) := by decide

theorem test_sra :
    seen (stepOf 0x000D62DD [(12, 0xF000), (13, 0x0004)] []) 11 = some (0xFF00, 0x0104, 6) ∧
      seen (stepOf 0x000D62DD [(12, 0x8000), (13, 0x0010)] []) 11 = some (0xFFFF, 0x0104, 6) ∧
      seen (stepOf 0x000D62DD [(12, 0x7FFF), (13, 0x0014)] []) 11 = some (0x0000, 0x0104, 6) := by decide

theorem test_slli :
    seen (stepOf 0x000862D2 [(12, 0x00AB)] []) 11 = some (0xAB00, 0x0104, 6) ∧
      seen (stepOf 0x010062D2 [(12, 0x00AB)] []) 11 = some (0x0000, 0x0104, 6) := by decide

theorem test_srli : seen (stepOf 0x00015B16 [(11, 0xFFFF)] []) 12 = some (0x7FFF, 0x0104, 6) := by decide

theorem test_srai :
    seen (stepOf 0x00015B1A [(11, 0xFFFF)] []) 12 = some (0xFFFF, 0x0104, 6) ∧
      seen (stepOf 0x000162DA [(12, 0x4000)] []) 11 = some (0x2000, 0x0104, 6) := by decide

theorem test_slt :
    seen (stepOf 0x000D62E1 [(12, 0x8000), (13, 0x7FFF)] []) 11 = some (0x0001, 0x0104, 6) ∧
      seen (stepOf 0x000D62E1 [(12, 0x7FFF), (13, 0x8000)] []) 11 = some (0x0000, 0x0104, 6) := by decide

theorem test_sltu :
    seen (stepOf 0x000D62E5 [(12, 0x8000), (13, 0x7FFF)] []) 11 = some (0x0000, 0x0104, 6) ∧
      seen (stepOf 0x000D02E5 [(13, 0x0001)] []) 11 = some (0x0001, 0x0104, 6) := by decide

theorem test_slti :
    seen (stepOf 0x000062DE [(12, 0xFFFF)] []) 11 = some (0x0001, 0x0104, 6) ∧
      seen (stepOf 0x800062DE [(12, 0x8000)] []) 11 = some (0x0000, 0x0104, 6) := by decide

theorem test_sltiu :
    seen (stepOf 0x000162E2 [(12, 0x0000)] []) 11 = some (0x0001, 0x0104, 6) ∧
      seen (stepOf 0x800062E2 [(12, 0xFFFF)] []) 11 = some (0x0000, 0x0104, 6) := by decide

theorem test_lh :
    seen (stepOf 0x000062E6 [(12, 0x0300)] [(0x0300, 0xCD), (0x0301, 0xAB)]) 11 = some (0xABCD, 0x0104, 6) ∧
      seen (stepOf 0xFFFF62E6 [] [(0xFFFF, 0x34), (0x0000, 0x12)]) 11 = some (0x1234, 0x0104, 6) := by decide

theorem test_lh_unwritten :
    stepOf 0x000062E6 [(12, 0x0300)] [(0x0300, 0xCD)] = .fault (.unwrittenByte 0x0301) ∧
      seen (stepOf 0x00006026 [(12, 0x0300)] [(0x0300, 0xFF), (0x0301, 0xFF)]) 0 = some (0x0000, 0x0104, 6) := ⟨rfl, by decide⟩

theorem test_sh :
    seenBytes (stepOf 0x0003602A [(12, 0x0300)] [(0x0303, 0xAA), (0x0304, 0xBB)]) 0x0303 0x0304 =
        some (some 0x00, some 0x00, 0x0104) ∧
      seenBytes (stepOf 0xFFFF02EA [(11, 0xBEEF)] []) 0x0000 0xFFFF = some (some 0xBE, some 0xEF, 0x0104) := by decide

theorem test_sh_stores_its_base :
    seenBytes (stepOf 0x0000632A [(12, 0x0300)] []) 0x0300 0x0301 = some (some 0x00, some 0x03, 0x0104) := by decide

theorem test_lhx :
    seen (stepOf 0x000D62E9 [(12, 0xFFFE), (13, 0x0304)] [(0x0302, 0x01), (0x0303, 0x80)]) 11 =
      some (0x8001, 0x0104, 6) := by decide

theorem test_shx :
    seenBytes (stepOf 0x000D62ED [(11, 0xCAFE), (12, 0x0300), (13, 0x0001)] []) 0x0301 0x0302 =
      some (some 0xFE, some 0xCA, 0x0104) := by decide

theorem test_jlz :
    seen (stepOf 0x02005AEE [(11, 0x0000)] []) 11 = some (0x0104, 0x0200, 6) ∧
      seen (stepOf 0x0200586E [(11, 0x0001), (1, 0x5555)] []) 1 = some (0x5555, 0x0104, 6) := by decide

theorem test_jlo :
    seen (stepOf 0x02005872 [(11, 0x0001)] []) 1 = some (0x0104, 0x0200, 6) ∧
      seen (stepOf 0x02005872 [(11, 0x0002), (1, 0x5555)] []) 1 = some (0x5555, 0x0104, 6) := by decide

theorem test_jlrz :
    seen (stepOf 0x00010071 [(1, 0x0140)] []) 1 = some (0x0104, 0x0140, 6) ∧
      seen (stepOf 0x000C5871 [(11, 0x0003), (12, 0x0400), (1, 0x5555)] []) 1 = some (0x5555, 0x0104, 6) := by decide

theorem test_jlro :
    seen (stepOf 0x000C5B35 [(11, 0x0001), (12, 0x0400)] []) 12 = some (0x0104, 0x0400, 6) ∧
      seen (stepOf 0x000C5875 [(11, 0x0000), (12, 0x0400), (1, 0x5555)] []) 1 = some (0x5555, 0x0104, 6) := by decide

theorem test_halt :
    seen (stepOf 0x00000003 [(3, 0x0008)] []) 3 = some (0x0008, 0x0100, 5) ∧
      (tick Config.default (placed 0x00000003 [] [])).1 = some .halted ∧
      (tick Config.default (placed 0x00000003 [] [])).2.halted = true := by decide

/-! ### Fetch, decode and engine corner cases (95_test_vectors.md section 3) -/

/-- The `add` of the table's fetch across the top of memory. -/
def addAtTheTop : State :=
  { running [(12, 5), (13, 3)] [(0xFFFE, 0xC1), (0xFFFF, 0x62), (0x0000, 0x0D), (0x0001, 0x00)] with pc := 0xFFFE }

theorem test_fetch_across_the_top : seen (step addAtTheTop) 11 = some (0x0008, 0x0002, 6) := by decide

theorem test_fetch_across_the_top_faults :
    tick { Config.default with edgeWrap := .fault } addAtTheTop = (some (.invalidAddress 0xFFFE), addAtTheTop) := by decide

/-- A `nop` at a misaligned pc. -/
def nopMisaligned : State :=
  { running [] [(0x0102, 0x0D), (0x0103, 0), (0x0104, 0), (0x0105, 0)] with pc := 0x0102 }

theorem test_misaligned_fetch :
    seen (step nopMisaligned) 0 = some (0, 0x0106, 6) ∧
      (tick { Config.default with misalignedFetch := .fault } nopMisaligned).1 = some (.invalidAddress 0x0102) := by decide

theorem test_pc_and_cycle_wrap :
    seen (step (({ running [] [] with pc := 0xFFFC, cycle := 0xFFFF }).withFetchWord 32 0x0000000D)) 0 =
      some (0, 0x0000, 0x0000) := by decide

theorem test_invalid_word :
    stepOf 0x00000000 [] [] = .fault (.invalidInstruction 0x00000000) ∧
      step (running [] []) = .fault (.unwrittenByte 0x0100) := ⟨rfl, rfl⟩

theorem test_halted_engine : step State.reset = .next State.reset ∧ (tick Config.default State.reset).1 = some .halted :=
  ⟨rfl, rfl⟩

theorem test_load_at_the_top_faults :
    (tick { Config.default with edgeWrap := .fault } (placed 0x000062E6 [(12, 0xFFFF)] [])).1 =
      some (.invalidAddress 0xFFFF) := by decide

theorem test_halt_counts_cycle :
    (tick { Config.default with haltCountsCycle := true } (placed 0x00000003 [] [])).2.cycle = 6 := by decide

theorem test_shift_mod16 :
    seen (tickWith { Config.default with shiftAmount := .mod16 } (placed 0x000D62D5 [(12, 1), (13, 0x0010)] [])) 11 =
        some (0x0001, 0x0104, 6) ∧
      seen (tickWith { Config.default with shiftAmount := .mod16 } (placed 0x001162DA [(12, 0x8000)] [])) 11 =
        some (0xC000, 0x0104, 6) := by decide

/-- Under `draw` the result of a shift by 16 is the free value and nothing else changes of the step. -/
theorem test_shift_draw :
    seen (tickWith { Config.default with shiftAmount := .draw } (placed 0x000D62D5 [(12, 1), (13, 0x0010)] [])) 11 =
      some (Config.shiftDraw .left 1 0x0010, 0x0104, 6) := rfl

/-! ### The boundary and the assembler -/

/-- Whatever a fresh engine holds, for the tests of the boot order. -/
def someFresh : PowerOn := { regs := Vector.replicate 32 0xDEAD, pc := 0x7777, halted := false, cycle := 0xFFFE }

/-- E1: boot, then the `halt` of program P0. -/
theorem test_boot_halt :
    (boot Config.default someFresh (encodeBytes (.halt 0)) 4 []).map (fun s => (tick Config.default s).1) =
        some (some .halted) ∧
      boot Config.default someFresh (encodeBytes (.halt 0)) 3 [] = none := by decide

theorem test_load_limits :
    (load [] [1, 2] 0xFFFE 2 State.reset).1 = .success ∧ (load [] [1, 2] 0xFFFF 2 State.reset).1 = .outOfMemory ∧
      (load [9, 9, 9] [1, 2, 3] 0x0200 2 State.reset).1 = .outOfMemory := by decide

/-- Program P1 (E2), assembled to the image the spec prints. -/
theorem test_assemble_p1 :
    assemble { literalOverflow := .reject, maxIdent := 32, directives := true } 0x0100
        ["li a0, 5", "li a1, 3 ; three", "add a0, a0, a1", "halt"] =
      .ok [0xCA, 0x00, 0x05, 0x00, 0x0A, 0x01, 0x03, 0x00, 0xC1, 0x18, 0x04, 0x00, 0x03, 0x00, 0x00, 0x00] := rfl

/-- The forward and the backward reference of program P6 (E8). -/
theorem test_assemble_labels :
    assemble { literalOverflow := .truncate, maxIdent := 32, directives := false } 0x0108
        ["loop: addi t1, t1, 10", "addi t0, t0, 0xFFFF", "jlz zero, t0, done", "j loop", "done: halt"] =
      .ok (encodeBytes (.addi 12 12 10) ++ encodeBytes (.addi 11 11 0xFFFF) ++ encodeBytes (.jlz 0 11 0x0118) ++
        encodeBytes (.jlz 0 0 0x0108) ++ encodeBytes (.halt 0)) := rfl

/-- A class C mnemonic has no opcode under the attested map: its table lookup fails during encoding (R116, I2). -/
theorem test_assemble_unmapped :
    assembleWith Config.default.attested ⟨.reject, 32, true⟩ 0x0100 ["sub a0, a0, a1"] =
        .error (.noOpcode (.sub 3 3 4)) ∧
      assembleWith Config.default.attested ⟨.reject, 32, true⟩ 0x0100 ["add a0, a0, a1"] =
        .ok [0xC1, 0x18, 0x04, 0x00] := ⟨rfl, rfl⟩

/-- DESIGN CHOICE (log entry 9): a directive takes a literal, and a register name may stand before `:`. -/
theorem test_assemble_open_points :
    assemble ⟨.reject, 32, true⟩ 0x0100 ["a: .half a"] = .error .noSkeleton ∧
      assemble ⟨.reject, 32, true⟩ 0x0100 ["ra: .half 0x1234"] = .ok [0x34, 0x12] := ⟨rfl, rfl⟩

theorem test_assembly_failures :
    assemble { literalOverflow := .reject, maxIdent := 32, directives := true } 0x0100 ["j nowhere"] =
        .error (.unknownLabel "nowhere") ∧
      assemble { literalOverflow := .reject, maxIdent := 32, directives := true } 0x0100 ["a: halt", "a: halt"] =
        .error (.duplicateLabel "a") ∧
      assemble { literalOverflow := .reject, maxIdent := 32, directives := true } 0x0100 ["li a0, -1"] =
        .error (.badCharacter '-') ∧
      assemble { literalOverflow := .reject, maxIdent := 32, directives := true } 0x0100 ["li a0, 65536"] =
        .error (.literalOverflow 65536) := ⟨rfl, rfl, rfl, rfl⟩

/-! ### Witnesses: for every obligation with hypotheses, a state and operands that meet them, clause by clause -/

/-- A clear running engine with the two bytes of a halfword where the top of memory wraps. -/
def wrapHalf : State := running [] [(0xFFFF, 0x34), (0x0000, 0x12)]

/-- `RegisterZeroReadsZeroAndDiscardsWrites`: `addi zero, zero, imm` and a link into register 0. -/
theorem test_witness_RegisterZeroReadsZeroAndDiscardsWrites :
    (∃ e, effectOf Config.default (.addi 0 0 0x1234) State.reset = .ok e ∧ e.reg = some (0, 0x1234)) ∧
      ∃ e, effectOf Config.default (.jlz 0 0 0x0200) State.reset = .ok e ∧ e.reg = some (0, 0x0104) :=
  ⟨⟨_, rfl, rfl⟩, ⟨_, rfl, rfl⟩⟩

/-- `WritesDecomposeLittleEndian`: an address other than the written one, and one other than both of a wrapping
halfword. -/
theorem test_witness_WritesDecomposeLittleEndian :
    (0xFFFE : Nat) ≠ (0xFFFF : Word).toNat ∧ (1 : Nat) ≠ (0xFFFF : Word).toNat ∧
      (1 : Nat) ≠ (addrAfter 0xFFFF 1).toNat := by decide

/-- `LoadOfUnwrittenByteFaults`: each of the four clauses, at 0xFFFF too. -/
theorem test_witness_LoadOfUnwrittenByteFaults :
    Memory.read State.reset.mem (eaImm State.reset 0 0xFFFF).toNat = none ∧
      Memory.read (running [] [(0xFFFF, 1)]).mem (eaImm (running [] [(0xFFFF, 1)]) 0 0xFFFF).toNat = some 1 ∧
      Memory.read (running [] [(0xFFFF, 1)]).mem (eaImm (running [] [(0xFFFF, 1)]) 0 0xFFFF + 1).toNat = none ∧
      Memory.read State.reset.mem (eaIndex State.reset 0 0).toNat = none ∧
      Memory.read (running [] [(0, 1)]).mem (eaIndex (running [] [(0, 1)]) 0 0).toNat = some 1 ∧
      Memory.read (running [] [(0, 1)]).mem (eaIndex (running [] [(0, 1)]) 0 0 + 1).toNat = none := by decide

/-- `DecodeReadsTheOpcodeAndEveryField` and `DecodedWordsAreEncodingsUpToReservedBits`: words with reserved bits set. -/
theorem test_witness_DecodedWordsAreEncodingsUpToReservedBits :
    decode 0xFFED62C1 = .ok (.add 11 12 13) ∧ decode 0x0000FFC3 = .ok (.halt 0) ∧
      decode 0xFFFF62CE = .ok (.xori 11 12 0xFFFF) := ⟨rfl, rfl, rfl⟩

/-- `RoundTripHoldsForEveryParameterChoice`: the defaults, and the attested map with other format codes. -/
theorem test_witness_RoundTripHoldsForEveryParameterChoice :
    Config.default.wellFormed = true ∧ (Instr.halt 0xFFFF).wellFormed Config.default = true ∧
      ({ Config.default.attested with formatCode := fun
          | .dss => 0
          | .dsi => 3
          | .i => 1 } : Config).wellFormed = true ∧
      (Instr.add 31 0 31).wellFormed Config.default.attested = true := by decide

/-- `ExactlyTheUnmappedWordsAreInvalid`: an invalid word at the edge of each clause. -/
theorem test_witness_ExactlyTheUnmappedWordsAreInvalid :
    decode 0x00000000 = .error (.noLayout 0) ∧ decode 0x00000007 = .error (.unmapped 7) ∧
      decode 0x00000036 = .error (.unmapped 0x36) ∧ decode 0x00000039 = .error (.unmapped 0x39) := ⟨rfl, rfl, rfl, rfl⟩

/-- `AddiAddsItsImmediate`, `OriWritesTheBitwiseOr`, `SrliShiftsZerosIn`, `SraiCopiesTheSignIn`, `JlzJumpsOnZero`,
`OrWritesTheBitwiseOr` and `JlrzJumpsOnZero`: words with their opcodes. -/
theorem test_witness_opcodes :
    opcodeField 0xFFFF02C2 = 0x02 ∧ opcodeField 0x000500CA = 0x0A ∧ opcodeField 0x00015B16 = 0x16 ∧
      opcodeField 0x00015B1A = 0x1A ∧ opcodeField 0x0200006E = 0x2E ∧ opcodeField 0xFFED62CD = 0x0D ∧
      opcodeField 0x00010031 = 0x31 := by decide

/-- `ShiftAmountRuleAlternatives`: each rule, with the amounts 15 and 16 where the clauses meet. -/
theorem test_witness_ShiftAmountRuleAlternatives :
    ({ Config.default with shiftAmount := .mod16 } : Config).shiftAmount = .mod16 ∧
      ({ Config.default with shiftAmount := .draw } : Config).shiftAmount = .draw ∧ (15 : Word).toNat < 16 ∧
      16 ≤ (16 : Word).toNat := by decide

/-- `ComparisonThenJumpFollowsTheRelation`: the last register. -/
theorem test_witness_ComparisonThenJumpFollowsTheRelation : (31 : RegIdx) ≠ 0 := by decide

/-- `LoadsWriteTheHalfword`: the halfword at 0xFFFF, by both addressing modes. -/
theorem test_witness_LoadsWriteTheHalfword :
    Memory.read wrapHalf.mem (wrapHalf.readReg 0 + 0xFFFF).toNat = some 0x34 ∧
      Memory.read wrapHalf.mem (wrapHalf.readReg 0 + 0xFFFF + 1).toNat = some 0x12 ∧
      Memory.read (running [] [(0, 1), (1, 2)]).mem ((running [] [(0, 1), (1, 2)]).readReg 0 +
        (running [] [(0, 1), (1, 2)]).readReg 0).toNat = some 1 ∧
      Memory.read (running [] [(0, 1), (1, 2)]).mem ((running [] [(0, 1), (1, 2)]).readReg 0 +
        (running [] [(0, 1), (1, 2)]).readReg 0 + 1).toNat = some 2 := by decide

/-- `AStoreIsSeenByTheNextFetch`: the store of program P4's kind, at 0x0100 with the next word at 0x0104. -/
theorem test_witness_AStoreIsSeenByTheNextFetch :
    eaImm (running [] [(0x0106, 0), (0x0107, 0)]) 0 0x0104 = (running [] [(0x0106, 0), (0x0107, 0)]).pc + 4 ∧
      Memory.read (running [] [(0x0106, 0), (0x0107, 0)]).mem
        ((running [] [(0x0106, 0), (0x0107, 0)]).pc + 6).toNat = some 0 ∧
      Memory.read (running [] [(0x0106, 0), (0x0107, 0)]).mem
        ((running [] [(0x0106, 0), (0x0107, 0)]).pc + 7).toNat = some 0 := by decide

/-- `AJumpToItselfHangs`: `j 0x0100` at 0x0100. -/
theorem test_witness_AJumpToItselfHangs :
    (placed 0x0100002E [] []).halted = false ∧ fetch Config.default (placed 0x0100002E [] []) = .ok 0x0100002E ∧
      decode 0x0100002E = .ok (.jlz 0 0 (placed 0x0100002E [] []).pc) := ⟨rfl, rfl, rfl⟩

/-- `AHaltRepeatsAfterRelease`: a `halt` at 0x0100. -/
theorem test_witness_AHaltRepeatsAfterRelease :
    (placed 3 [] []).halted = false ∧ fetch Config.default (placed 3 [] []) = .ok 3 ∧ decode 3 = .ok (.halt 0) :=
  ⟨rfl, rfl, rfl⟩

/-- `EffectsAreExclusive`: effects of the four kinds. -/
theorem test_witness_EffectsAreExclusive :
    (∃ e, effectOf Config.default (.halt 7) State.reset = .ok e ∧ e.halt = true) ∧
      (∃ e, effectOf Config.default (.jlz 1 0 0) State.reset = .ok e ∧ e.jump.isSome = true) ∧
      (∃ e, effectOf Config.default (.sh 1 0 0xFFFF) State.reset = .ok e ∧ e.mem.isSome = true) ∧
      ∃ e, effectOf Config.default (.add 31 1 2) State.reset = .ok e ∧ e.reg.isSome = true :=
  ⟨⟨_, rfl, rfl⟩, ⟨_, rfl, rfl⟩, ⟨_, rfl, rfl⟩, ⟨_, rfl, rfl⟩⟩

/-- `OnlyTheNamedRegisterAndHalfwordChange`: a store, which writes no register, and an `add` that leaves register 30. -/
theorem test_witness_OnlyTheNamedRegisterAndHalfwordChange :
    (∃ t, execWith Config.default (.sh 1 0 0xFFFF) State.reset = .next t) ∧ writtenReg (.sh 1 0 0xFFFF) ≠ some 1 ∧
      storeAddress (.sh 1 0 0xFFFF) State.reset = some 0xFFFF ∧
      (∃ t, execWith Config.default (.add 31 1 2) State.reset = .next t) ∧ writtenReg (.add 31 1 2) ≠ some 30 ∧
      storeAddress (.add 31 1 2) State.reset = none :=
  ⟨⟨_, rfl⟩, by decide, rfl, ⟨_, rfl⟩, by decide, rfl⟩

/-- `ThreeThingsWriteTheFlag`: a `halt` that completes, and another instruction that completes. -/
theorem test_witness_ThreeThingsWriteTheFlag :
    (∃ t, execWith Config.default (.halt 0) (running [] []) = .next t) ∧
      (∀ imm, (Instr.add 0 0 0) ≠ .halt imm) ∧ ∃ t, execWith Config.default (.add 0 0 0) (running [] []) = .next t :=
  ⟨⟨_, rfl⟩, (fun _ => by simp), ⟨_, rfl⟩⟩

/-- `OnlyLoadsOfUnwrittenBytesStop`: a load that stops at its second byte, past the top of memory. -/
theorem test_witness_OnlyLoadsOfUnwrittenBytesStop :
    exec (.lh 0 0 0xFFFF) (running [] [(0xFFFF, 1)]) = .fault (.unwrittenByte 0x0000) := rfl

/-- `AStepRunsTheDecodedInstruction`: four bytes across the top of memory. -/
theorem test_witness_AStepRunsTheDecodedInstruction :
    addAtTheTop.halted = false ∧ Memory.read addAtTheTop.mem addAtTheTop.pc.toNat = some 0xC1 ∧
      Memory.read addAtTheTop.mem (addAtTheTop.pc + 1).toNat = some 0x62 ∧
      Memory.read addAtTheTop.mem (addAtTheTop.pc + 2).toNat = some 0x0D ∧
      Memory.read addAtTheTop.mem (addAtTheTop.pc + 3).toNat = some 0x00 ∧
      decodeBytes [0xC1, 0x62, 0x0D, 0x00] = .ok (.add 11 12 13, []) := ⟨rfl, rfl, rfl, rfl, rfl, rfl⟩

/-- `AHaltedEngineStaysAsItIs`: the state after reset. -/
theorem test_witness_AHaltedEngineStaysAsItIs : State.reset.halted = true := rfl

/-- `AnInvalidWordChangesNothing`: the all-zero word and an unmapped funct. -/
theorem test_witness_AnInvalidWordChangesNothing :
    (placed 0 [] []).halted = false ∧ fetch Config.default (placed 0 [] []) = .ok 0 ∧
      decodeWith Config.default 0 = .error (.noLayout 0) ∧ fetch Config.default (placed 0x39 [] []) = .ok 0x39 ∧
      decodeWith Config.default 0x39 = .error (.unmapped 0x39) := ⟨rfl, rfl, rfl, rfl, rfl⟩

/-- `AFailedTickChangesNothing`: a tick that fails. -/
theorem test_witness_AFailedTickChangesNothing :
    (tick Config.default (placed 0 [] [])).1 ≠ some .success ∧ (tick Config.default (placed 0 [] [])).1 ≠ some .halted := by
  decide

/-- `SuccessCountsOneCycle`, each clause: a success, a failure, and a `halt` that is counted. -/
theorem test_witness_SuccessCountsOneCycle :
    (tick Config.default (placed 0x0D [] [])).1 = some .success ∧
      (tick Config.default (placed 0 [] [])).1 ≠ some .success ∧
      ¬ (Config.default.haltCountsCycle = true ∧ ExecutesHalt Config.default (placed 0 [] [])) ∧
      ({ Config.default with haltCountsCycle := true } : Config).haltCountsCycle = true ∧
      ExecutesHalt { Config.default with haltCountsCycle := true } (placed 3 [] []) :=
  ⟨by decide, by decide, (fun h => by simp [Config.default] at h), rfl, rfl, 3, 0, rfl, rfl⟩

/-- `PcAdvancesOrJumps`: a success that jumps, one that does not, and a tick that is no success. -/
theorem test_witness_PcAdvancesOrJumps :
    (tick Config.default (placed 0x0200002E [] [])).1 = some .success ∧
      (tick Config.default (placed 0x0D [] [])).1 = some .success ∧
      (tick Config.default State.reset).1 ≠ some .success := by decide

/-- `SequentialAdvanceKeepsAlignment`: an `add` at the misaligned pc 0xFFFE, which wraps. -/
theorem test_witness_SequentialAdvanceKeepsAlignment :
    isJump (.add 1 2 3) = false ∧ ∃ t, execWith Config.default (.add 1 2 3) addAtTheTop = .next t := ⟨rfl, _, rfl⟩

/-- `MisalignedFetchParameterFaults`: pc 0x0102. -/
theorem test_witness_MisalignedFetchParameterFaults :
    ({ Config.default with misalignedFetch := .fault } : Config).misalignedFetch = .fault ∧
      nopMisaligned.halted = false ∧ nopMisaligned.pc.toNat % 4 ≠ 0 := by decide

/-- `EdgeWrapParameterFaults`, each clause: the first pc above 0xFFFC, and the address 0xFFFF by both modes. -/
theorem test_witness_EdgeWrapParameterFaults :
    ({ Config.default with edgeWrap := .fault } : Config).edgeWrap = .fault ∧
      ({ running [] [] with pc := 0xFFFD } : State).halted = false ∧
      0xFFFC < ({ running [] [] with pc := 0xFFFD } : State).pc.toNat ∧ eaImm State.reset 0 0xFFFF = 0xFFFF ∧
      eaIndex (running [(31, 0xFFFF)] []) 31 0 = 0xFFFF := by decide

/-- A running engine whose slot of register 0 holds 7, which no read shows, with a `nop` at pc. -/
def hiddenSlot (s : State) : State := { s with regs := s.regs.set 0 7 }

/-- `AStepDependsOnlyOnWhatCanBeRead`: two different states that no read tells apart, one pair that steps on and one
that faults. -/
theorem test_witness_AStepDependsOnlyOnWhatCanBeRead :
    (Alike (placed 0x0D [] []) (hiddenSlot (placed 0x0D [] [])) ∧
        placed 0x0D [] [] ≠ hiddenSlot (placed 0x0D [] []) ∧ ∃ t, step (placed 0x0D [] []) = .next t) ∧
      Alike (running [] []) (hiddenSlot (running [] [])) ∧ running [] [] ≠ hiddenSlot (running [] []) ∧
        step (running [] []) = .fault (.unwrittenByte 0x0100) :=
  ⟨⟨⟨by decide, rfl, rfl, rfl, fun _ => rfl⟩, by decide, _, rfl⟩, ⟨by decide, rfl, rfl, rfl, fun _ => rfl⟩, by decide, rfl⟩

/-- `EveryStepKeepsTheInvariant`: a store at 0xFFFF. -/
theorem test_witness_EveryStepKeepsTheInvariant :
    (placed 0xFFFF02EA [(11, 0xBEEF)] []).wf = true ∧ ∃ t, step (placed 0xFFFF02EA [(11, 0xBEEF)] []) = .next t :=
  ⟨by decide, _, rfl⟩

/-- `EveryTransactionKeepsTheInvariant`: a state with listed bytes. -/
theorem test_witness_EveryTransactionKeepsTheInvariant : wrapHalf.wf = true := by decide

/-- `TheCounterCountsTicks`: one `nop`, and a run of no tick. -/
theorem test_witness_TheCounterCountsTicks :
    (∃ t, runFor Config.default 1 (placed 0x0D [] []) = .running t) ∧
      ∃ t, runFor Config.default 0 (placed 0x0D [] []) = .running t := ⟨⟨_, rfl⟩, ⟨_, rfl⟩⟩

/-- `RunsEndOnAHaltOrRepeatTheirFailure`, each clause: a `halt`, and an invalid word. -/
theorem test_witness_RunsEndOnAHaltOrRepeatTheirFailure :
    (∃ t, runFor Config.default 1 (placed 3 [] []) = .final t) ∧
      ∃ t, runFor Config.default 1 (placed 0 [] []) = .failed (.invalidInstruction 0) t := ⟨⟨_, rfl⟩, ⟨_, rfl⟩⟩

/-- `TheHostAndTheInstructionsShareMemory`: the halfword at 0xFFFF, loaded into the last register. -/
theorem test_witness_TheHostAndTheInstructionsShareMemory :
    (31 : RegIdx) ≠ 0 ∧ eaImm State.reset 0 0xFFFF = 0xFFFF := by decide

/-- `TheLoadPlacesTheFile`: a file that ends at 0xFFFF exactly, and one that is a byte too long. -/
theorem test_witness_TheLoadPlacesTheFile :
    (load [] [1, 2] 0xFFFE 2 State.reset).1 = .success ∧ (load [7] [1, 2, 3] 0xFFFE 3 State.reset).1 ≠ .success ∧
      (0 < ([1, 2] : List Byte).length) ∧ (0x10000 : Nat) ≥ (0xFFFE : Word).toNat + ([1, 2] : List Byte).length := by decide

/-- `BootRunsTheFirstInstruction`: one instruction in a region of exactly its size, and the longest program. -/
theorem test_witness_BootRunsTheFirstInstruction :
    ([] : List Byte).length + 4 ≤ 4 ∧ ([] : List Byte).length ≤ 0xFEFC ∧
      (List.replicate 0xFEFC (0 : Byte)).length + 4 ≤ 0xFF00 ∧ (List.replicate 0xFEFC (0 : Byte)).length ≤ 0xFEFC := by
  rw [List.length_replicate, List.length_nil]
  omega

/-- `AnUnknownLabelFailsAssembly`: a source of a label and a jump to another one. -/
theorem test_witness_AnUnknownLabelFailsAssembly :
    Group.instr (.dsi .jlz 0 0 (.label "nowhere")) ∈ [Group.label "here", .instr (.dsi .jlz 0 0 (.label "nowhere"))] ∧
      Group.label "nowhere" ∉ [Group.label "here", .instr (.dsi .jlz 0 0 (.label "nowhere"))] := by decide

end Sys2Proof.Tests
end

section
/-! Family 10_state.md: the register file and the reset/halt flag (R31, R35, R41). First what the commit of an effect, a host
write and a program load do to the registers and the flag, each said once; then the statements. -/

namespace Sys2Proof.Machine

/-! ### The commit of an effect -/

/-- The flag after a commit: only a halting effect writes it (R144, R146). -/
theorem commit_halted (c : Config) (e : Effect) (s : State) : (commit c e s).halted = (e.halt || s.halted) := by
  cases h : e.halt with
  | true => simp [commit_halt c e s h]
  | false => simp [commit_run c e s h]

/-- The registers after a commit: the effect's register write and nothing else, and not even that beside a halt. -/
theorem commit_readReg (c : Config) (e : Effect) (s : State) (j : RegIdx) :
    (commit c e s).readReg j = if e.halt then s.readReg j else (s.applyReg e.reg).readReg j := by
  cases h : e.halt with
  | true => simp [commit_halt c e s h]
  | false => simp [commit_run c e s h]

/-- An effect that writes register 0 leaves every register as it reads (R31). -/
theorem commit_sameRegs_of_reg_zero (c : Config) (e : Effect) (v : Word) (s : State) (h : e.reg = some (0, v)) :
    SameRegs s (commit c e s) := by
  intro j
  have discarded : s.applyReg e.reg = s := by rw [h]; exact s.writeReg_zero v
  rw [commit_readReg, discarded, ite_self]

/-! ### Which effects halt -/

/-- A load that completes read its halfword and writes it to its register, and does nothing else. -/
theorem loadHalf_eq_ok (c : Config) (d : RegIdx) (ea : Word) (s : State) (e : Effect) :
    loadHalf c d ea s = .ok e ↔ ∃ v, readHalf c s.mem ea = .ok v ∧ e = { reg := some (d, v) } := by
  unfold loadHalf
  cases readHalf c s.mem ea <;> simp [writesReg, eq_comm]

/-- A store that completes passed the check of rule R67 and writes its halfword, and does nothing else. -/
theorem storeHalf_eq_ok (c : Config) (d : RegIdx) (ea : Word) (s : State) (e : Effect) :
    storeHalf c d ea s = .ok e ↔ edgeCheck c ea 2 = .ok () ∧ e = { mem := some (ea, s.readReg d) } := by
  unfold storeHalf
  cases edgeCheck c ea 2 <;> simp [eq_comm]

/-- A jump-and-link never halts, taken or not. -/
theorem jumpAndLink_halt (taken : Bool) (d : RegIdx) (target : Word) (s : State) (e : Effect)
    (h : jumpAndLink taken d target s = .ok e) : e.halt = false := by
  cases taken <;> cases h <;> rfl

/-- Of the 28 instructions exactly `halt` has an effect that halts (R149). -/
theorem effectOf_halt_iff (c : Config) (i : Instr) (s : State) (e : Effect) (he : effectOf c i s = .ok e) :
    e.halt = true ↔ ∃ imm, i = .halt imm := by
  have shape := effectOf_shape c i s
  rw [he] at shape
  generalize hr : (Except.ok e : Effected) = r at shape
  cases shape with
  | write d v _ _ hne _ => cases hr; simp [hne]
  | load d ea _ _ hne _ _ =>
    obtain ⟨v, -, rfl⟩ := (loadHalf_eq_ok c d ea s e).mp hr.symm
    simp [hne]
  | store d ea _ hne _ =>
    obtain ⟨-, rfl⟩ := (storeHalf_eq_ok c d ea s e).mp hr.symm
    simp [hne]
  | jump taken d target _ _ hne _ => simp [jumpAndLink_halt taken d target s e hr.symm, hne]
  | stop imm hi => cases hr; simp [hi]

/-- A `halt` that completes leaves the flag set. -/
theorem execWith_halt_halted (c : Config) (imm : Word) (s t : State) (h : execWith c (.halt imm) s = .next t) :
    t.halted = true := by
  obtain ⟨e, he, rfl⟩ := (execWith_eq_next c _ s t).mp h
  have stops : e.halt = true := (effectOf_halt_iff c _ s e he).mpr ⟨imm, rfl⟩
  simp [commit_halted, stops]

/-- Any other instruction that completes leaves the flag as it was. -/
theorem execWith_halted_of_not_halt (c : Config) (i : Instr) (s t : State) (hi : ∀ imm, i ≠ .halt imm)
    (h : execWith c i s = .next t) : t.halted = s.halted := by
  obtain ⟨e, he, rfl⟩ := (execWith_eq_next c i s t).mp h
  have runs : e.halt = false := by simp [← Bool.not_eq_true, effectOf_halt_iff c i s e he, hi]
  simp [commit_halted, runs]

/-! ### The host's writes and the program load -/

/-- A host write of a register is the instructions' own register write (R31, R35). -/
@[simp] theorem applyWrite_reg (c : Config) (i : RegIdx) (v : Word) (s : State) :
    applyWrite c (.reg i v) s = s.writeReg i v := rfl

/-- No host write changes the flag (D23). -/
@[simp] theorem applyWrite_halted (c : Config) (w : HostWrite) (s : State) : (applyWrite c w s).halted = s.halted := by
  cases w with
  | reg i v => simp
  | pc v => rfl
  | cycle v => rfl
  | byte a b => rfl
  | half a v =>
    simp only [applyWrite]
    split <;> rfl

/-- No program load changes the flag, whether it succeeds or fails (R82). -/
@[simp] theorem load_halted (draw file : List Byte) (base : Word) (size : Nat) (s : State) :
    (load draw file base size s).2.halted = s.halted := by
  unfold load
  split <;> rfl

/-! ### The statements -/

/-- Settles O33: the commit writes the flag for a halting effect only, and only `halt` has one. -/
theorem threeThingsWriteTheFlag : Obligations.ThreeThingsWriteTheFlag :=
  ⟨fun _ _ => rfl, fun _ => rfl, execWith_halt_halted, execWith_halted_of_not_halt, applyWrite_halted, load_halted,
    effectOf_setHalted⟩

/-- Settles O1: the register write at index 0 is no write, and both a host write and an effect's commit go through it. -/
theorem registerZeroReadsZeroAndDiscardsWrites : Obligations.RegisterZeroReadsZeroAndDiscardsWrites := by
  intro s
  refine ⟨s.readReg_zero, s.writeReg_zero, fun _ v => s.writeReg_zero v, ?_⟩
  intro c i e v he hreg
  exact ⟨commit c e s, (execWith_eq_next c i s _).mpr ⟨e, he, rfl⟩, commit_sameRegs_of_reg_zero c e v s hreg,
    State.readReg_zero _⟩

/-- Settles O55: a host write of a register is a register write, whose readback and frame the laws of the state give. -/
theorem theHostReadsAndWritesRegisters : Obligations.TheHostReadsAndWritesRegisters := by
  intro c i v s
  rw [applyWrite_reg]
  exact ⟨fun j => s.readReg_writeReg i j v, fun a => by rw [State.writeReg_mem], s.writeReg_pc i v,
    s.writeReg_cycle i v, s.writeReg_halted i v⟩

end Sys2Proof.Machine
end

section
/-! Family 40_engine.md: the cycle counter over one tick (R145, R146). First what a commit does to the counter and what a tick
can return, each said once; then the statement, one lemma per clause. -/

namespace Sys2Proof.Machine

/-! ### The counter after a commit -/

/-- A commit counts one cycle (R145), but for a halt that `HALT_COUNTS_CYCLE` does not count (R146). -/
theorem commit_cycle (c : Config) (e : Effect) (s : State) :
    (commit c e s).cycle = if e.halt && !c.haltCountsCycle then s.cycle else s.cycle + 1 := by
  cases h : e.halt with
  | true => cases hc : c.haltCountsCycle <;> simp [commit_halt c e s h, hc]
  | false => simp [commit_run c e s h]

/-! ### What a tick returns -/

/-- A fault is never reported as `SUCCESS` (R150). -/
theorem tickStatus_fault_ne_success (f : Fault) : tickStatus (.fault f) ≠ some .success := by
  cases f <;> simp [tickStatus]

/-- A tick of a halted engine (R151). -/
theorem tick_of_halted (c : Config) (s : State) (h : s.halted = true) : tick c s = (some .halted, s) := by
  simp [tick, tickWith, tickAround, tickStatus, stateAfter, h]

/-- A tick that fails: the failure's status, and the state as it was (R147). -/
theorem tick_of_fault (c : Config) (s : State) (f : Fault) (h : tickWith c s = .fault f) :
    tick c s = (tickStatus (.fault f), s) := by
  simp [tick, h, stateAfter]

/-- A running engine executes the instruction that it fetches and decodes (R144). -/
theorem tickWith_of_decode (c : Config) (s : State) (w : InstrWord) (i : Instr) (hrun : s.halted = false)
    (hw : fetch c s = .ok w) (hi : decodeWith c w = .ok i) : tickWith c s = execWith c i s := by
  simp [tickWith, tickAround, hrun, hw, hi]

/-- A tick of a running engine whose instruction has an effect: the effect is committed, and the status says whether it
halts (R144). -/
theorem tick_of_effect (c : Config) (s : State) (w : InstrWord) (i : Instr) (e : Effect) (hrun : s.halted = false)
    (hw : fetch c s = .ok w) (hi : decodeWith c w = .ok i) (he : effectOf c i s = .ok e) :
    tick c s = (some (if e.halt then .halted else .success), commit c e s) := by
  have next : tickWith c s = .next (commit c e s) := by
    rw [tickWith_of_decode c s w i hrun hw hi]
    exact (execWith_eq_next c i s _).mpr ⟨e, he, rfl⟩
  simp [tick, next, tickStatus, stateAfter, commit_halted, hrun]

/-- The three ways a tick can end (R144): the engine was halted, the tick failed, or an instruction's effect was
committed. -/
inductive TickShape (c : Config) (s : State) : Option Status × State → Prop
  | halted : s.halted = true → TickShape c s (some .halted, s)
  | failed (f : Fault) : s.halted = false → tickWith c s = .fault f → TickShape c s (tickStatus (.fault f), s)
  | committed (w : InstrWord) (i : Instr) (e : Effect) : s.halted = false → fetch c s = .ok w →
      decodeWith c w = .ok i → effectOf c i s = .ok e →
      TickShape c s (some (if e.halt then .halted else .success), commit c e s)

/-- Every tick ends in one of the three ways. -/
theorem tick_shape (c : Config) (s : State) : TickShape c s (tick c s) := by
  have failed (f : Fault) (hrun : s.halted = false) (h : tickWith c s = .fault f) : TickShape c s (tick c s) := by
    rw [tick_of_fault c s f h]
    exact .failed f hrun h
  rcases tickAround_cases c (execWith c) s with
    ⟨hh, -⟩ | ⟨hrun, f, -, h⟩ | ⟨hrun, w, _, -, -, h⟩ | ⟨hrun, w, i, hw, hi, h⟩
  · rw [tick_of_halted c s hh]
    exact .halted hh
  · exact failed f hrun h
  · exact failed (.invalidInstruction w) hrun h
  · cases he : effectOf c i s with
    | error f => exact failed f hrun (h.trans ((finish_eq_fault c _ s f).mpr he))
    | ok e =>
      rw [tick_of_effect c s w i e hrun hw hi he]
      exact .committed w i e hrun hw hi he

/-- A tick that executes a `halt` returns `HALTED` and commits the stop alone (R146). -/
theorem tick_of_executesHalt (c : Config) (s : State) (h : ExecutesHalt c s) :
    tick c s = (some .halted, commit c { halt := true } s) := by
  obtain ⟨hrun, w, imm, hw, hi⟩ := h
  exact tick_of_effect c s w (.halt imm) { halt := true } hrun hw hi rfl

/-! ### The statement -/

/-- Only the commit of an effect that does not halt is a `SUCCESS`, and it counts one cycle. -/
theorem tick_cycle_of_success (c : Config) (s : State) (h : (tick c s).1 = some .success) :
    (tick c s).2.cycle = s.cycle + 1 := by
  have shape := tick_shape c s
  generalize tick c s = r at h shape
  cases shape with
  | halted _ => cases h
  | failed f _ _ => exact absurd h (tickStatus_fault_ne_success f)
  | committed w i e _ _ _ _ =>
    have runs : e.halt = false := by simpa using h
    simp [commit_cycle, runs]

/-- A tick without `SUCCESS` commits nothing, or else the stop of a `halt`, whose cycle is the one that can count. -/
theorem tick_cycle_of_ne_success (c : Config) (s : State) (h : (tick c s).1 ≠ some .success)
    (uncounted : ¬ (c.haltCountsCycle = true ∧ ExecutesHalt c s)) : (tick c s).2.cycle = s.cycle := by
  have shape := tick_shape c s
  generalize tick c s = r at h shape
  cases shape with
  | halted _ => rfl
  | failed f _ _ => rfl
  | committed w i e hrun hw hi he =>
    have stops : e.halt = true := by simpa using h
    obtain ⟨imm, rfl⟩ := (effectOf_halt_iff c i s e he).mp stops
    have off : c.haltCountsCycle = false :=
      Bool.eq_false_iff.mpr fun on => uncounted ⟨on, hrun, w, imm, hw, hi⟩
    simp [commit_cycle, stops, off]

/-- Settles O41, by the three ways a tick can end: only a commit moves the counter, and of the two kinds of commit only
the stop's count depends on the parameter. -/
theorem successCountsOneCycle : Obligations.SuccessCountsOneCycle := by
  intro c s
  refine ⟨tick_cycle_of_success c s, tick_cycle_of_ne_success c s, fun on h => ?_⟩
  rw [tick_of_executesHalt c s h]
  exact ⟨rfl, by simp [commit_cycle, on]⟩

end Sys2Proof.Machine
end

section
/-! Family 70_reset_and_hazards.md: the release from reset (R341). First the two host operations the statement speaks of, each
tied to its named update of the state; then the statement. -/

namespace Sys2Proof.Machine

/-! ### The host's operations as updates of the state -/

/-- `deassert_reset` is the flag's own update (R140, R341). -/
@[simp] theorem deassertReset_eq_setHalted (s : State) : deassertReset s = s.setHalted false := rfl

/-- A host write of pc is pc's own update, unchecked (R39). -/
@[simp] theorem applyWrite_pc (c : Config) (v : Word) (s : State) : applyWrite c (.pc v) s = s.setPc v := rfl

/-! ### The statement -/

/-- What the release from reset leaves: pc, the counter, every register and every byte (R341). -/
theorem deassertReset_frame (s : State) :
    (deassertReset s).pc = s.pc ∧ (deassertReset s).cycle = s.cycle ∧ SameRegs s (deassertReset s) ∧
      SameMemory s (deassertReset s) := by
  rw [deassertReset_eq_setHalted]
  exact ⟨s.setHalted_pc false, s.setHalted_cycle false, s.setHalted_readReg false,
    fun a => by rw [State.setHalted_mem]⟩

/-- The release from reset starts the engine (R341). -/
theorem deassertReset_halted (s : State) : (deassertReset s).halted = false := by
  rw [deassertReset_eq_setHalted, State.setHalted_halted]

/-- Settles O54: the release is the flag's update, so its frame keeps the pc that the host wrote during reset. -/
theorem deassertResetClearsTheFlagOnly : Obligations.DeassertResetClearsTheFlagOnly := by
  intro c s
  refine ⟨⟨deassertReset_halted s, deassertReset_frame s⟩, fun v => ⟨?_, deassertReset_halted _⟩⟩
  obtain ⟨pcKept, -⟩ := deassertReset_frame (applyWrite c (.pc v) (assertReset c s))
  rw [pcKept, applyWrite_pc, State.setPc_pc]

end Sys2Proof.Machine
end

section
/-! Family 30_encoding.md: decode and encode (R91 to R106). First the layout view of an instruction and what decode reads from a
word, said once for any parameters; then the default opcode table; then the statements. -/

namespace Sys2Proof

/-! ### An instruction by its layout -/

@[simp] theorem DssOp.toFields_toInstr (op : DssOp) (d s1 s2 : RegIdx) :
    (op.toInstr d s1 s2).toFields = .dss op d s1 s2 := by cases op <;> rfl

@[simp] theorem DsiOp.toFields_toInstr (op : DsiOp) (d s1 : RegIdx) (imm : Word) :
    (op.toInstr d s1 imm).toFields = .dsi op d s1 imm := by cases op <;> rfl

@[simp] theorem IOp.toFields_toInstr (op : IOp) (imm : Word) : (op.toInstr imm).toFields = .i op imm := by
  cases op; rfl

/-- The instruction that a layout's operation and fields are: the inverse of `Instr.toFields`. -/
def Fields.toInstr : Fields → Instr
  | .dss op d s1 s2 => op.toInstr d s1 s2
  | .dsi op d s1 imm => op.toInstr d s1 imm
  | .i op imm => op.toInstr imm

@[simp] theorem Fields.toInstr_toFields (i : Instr) : i.toFields.toInstr = i := by cases i <;> rfl

@[simp] theorem Fields.toFields_toInstr (x : Fields) : x.toInstr.toFields = x := by
  cases x <;> simp [Fields.toInstr]

/-- An instruction is determined by its layout's operation and fields (R148). -/
theorem Fields.toInstr_inj (x y : Fields) : x.toInstr = y.toInstr ↔ x = y :=
  ⟨fun h => by simpa using congrArg Instr.toFields h, fun h => h ▸ rfl⟩

/-! ### What decode reads -/

/-- The word carries these fields: its format selects their layout, its funct their operation, and each operand stands in its
own bits (R91 to R97). -/
def Fields.InWord (c : Config) (w : InstrWord) : Fields → Prop
  | .dss op d s1 s2 => formatField w = c.formatCode .dss ∧ c.dssMap (functField w) = some op ∧
      destField w = d ∧ source1Field w = s1 ∧ source2Field w = s2
  | .dsi op d s1 imm => formatField w = c.formatCode .dsi ∧ c.dsiMap (functField w) = some op ∧
      destField w = d ∧ source1Field w = s1 ∧ immField w = imm
  | .i op imm => formatField w = c.formatCode .i ∧ c.iMap (functField w) = some op ∧ immField w = imm

/-- `FORMAT_CODE` gives the three layouts three codes (R95). -/
theorem Config.wellFormed_iff (c : Config) : c.wellFormed = true ↔
    c.formatCode .dss ≠ c.formatCode .dsi ∧ c.formatCode .dss ≠ c.formatCode .i ∧
      c.formatCode .dsi ≠ c.formatCode .i := by
  simp [Config.wellFormed, and_assoc]

/-- Everything decode can answer, by the format of the word (R97, R106). -/
inductive DecodeShape (c : Config) (w : InstrWord) : Except DecodeReject Instr → Prop
  | dss (op : DssOp) : formatField w = c.formatCode .dss → c.dssMap (functField w) = some op →
      DecodeShape c w (.ok (Fields.dss op (destField w) (source1Field w) (source2Field w)).toInstr)
  | dssUnmapped : formatField w = c.formatCode .dss → c.dssMap (functField w) = none →
      DecodeShape c w (.error (.unmapped w))
  | dsi (op : DsiOp) : formatField w = c.formatCode .dsi → c.dsiMap (functField w) = some op →
      DecodeShape c w (.ok (Fields.dsi op (destField w) (source1Field w) (immField w)).toInstr)
  | dsiUnmapped : formatField w = c.formatCode .dsi → c.dsiMap (functField w) = none →
      DecodeShape c w (.error (.unmapped w))
  | i (op : IOp) : formatField w = c.formatCode .i → c.iMap (functField w) = some op →
      DecodeShape c w (.ok (Fields.i op (immField w)).toInstr)
  | iUnmapped : formatField w = c.formatCode .i → c.iMap (functField w) = none →
      DecodeShape c w (.error (.unmapped w))
  | noLayout : (∀ l, formatField w ≠ c.formatCode l) → DecodeShape c w (.error (.noLayout w))

/-- Decode always answers in one of these ways. -/
theorem decodeWith_shape (c : Config) (w : InstrWord) : DecodeShape c w (decodeWith c w) := by
  unfold decodeWith
  split
  case isTrue hi =>
    cases hm : c.iMap (functField w) with
    | none => exact .iUnmapped hi hm
    | some op => exact .i op hi hm
  case isFalse hi =>
    split
    case isTrue hdsi =>
      cases hm : c.dsiMap (functField w) with
      | none => exact .dsiUnmapped hdsi hm
      | some op => exact .dsi op hdsi hm
    case isFalse hdsi =>
      split
      case isTrue hdss =>
        cases hm : c.dssMap (functField w) with
        | none => exact .dssUnmapped hdss hm
        | some op => exact .dss op hdss hm
      case isFalse hdss => exact .noLayout fun l => by cases l <;> assumption

/-- With three different format codes, a word decodes to exactly the fields it carries (R95, R97). -/
theorem decodeWith_eq_ok (c : Config) (hc : c.wellFormed = true) (w : InstrWord) (x : Fields) :
    decodeWith c w = .ok x.toInstr ↔ x.InWord c w := by
  obtain ⟨dss_dsi, dss_i, dsi_i⟩ := c.wellFormed_iff.mp hc
  have shape := decodeWith_shape c w
  generalize decodeWith c w = r at shape
  cases shape with
  | dss op hf hm | dsi op hf hm | i op hf hm =>
    rw [Except.ok.injEq, Fields.toInstr_inj]
    cases x <;> simp [Fields.InWord, hf, hm, dss_dsi, dss_i, dsi_i, dss_dsi.symm, dss_i.symm, dsi_i.symm]
  | dssUnmapped hf hm | dsiUnmapped hf hm | iUnmapped hf hm =>
    cases x <;> simp [Fields.InWord, hf, hm, dss_dsi, dss_i, dsi_i, dss_dsi.symm, dss_i.symm, dsi_i.symm]
  | noLayout hf => cases x <;> simp [Fields.InWord, hf]

/-! ### What the encoder packs -/

/-- A word of the encoder carries the fields of its instruction (R105). -/
theorem inWord_of_encodeWith (c : Config) (i : Instr) (w : InstrWord) (h : encodeWith c i = some w) :
    i.toFields.InWord c w := by
  unfold encodeWith at h
  split at h <;> rename_i hx <;> rw [hx] <;> obtain ⟨f, hf, rfl⟩ := Option.map_eq_some_iff.mp h
  case h_1 op d s1 s2 =>
    obtain ⟨format, funct, dest, source1, source2⟩ := packDss_fields (c.formatCode .dss) f d s1 s2
    exact ⟨format, (congrArg c.dssMap funct).trans (functOf_sound _ _ _ hf), dest, source1, source2⟩
  case h_2 op d s1 imm =>
    obtain ⟨format, funct, dest, source1, immediate⟩ := packDsi_fields (c.formatCode .dsi) f d s1 imm
    exact ⟨format, (congrArg c.dsiMap funct).trans (functOf_sound _ _ _ hf), dest, source1, immediate⟩
  case h_3 op imm =>
    obtain ⟨format, funct, immediate⟩ := packI_fields (c.formatCode .i) f imm
    exact ⟨format, (congrArg c.iMap funct).trans (functOf_sound _ _ _ hf), immediate⟩

/-- The encoder gives a word to exactly the instructions that have an opcode (R104, R105). -/
theorem encodeWith_isSome (c : Config) (i : Instr) : (encodeWith c i).isSome = i.wellFormed c := by
  cases hx : i.toFields <;> simp only [encodeWith, Instr.wellFormed, hx, Option.isSome_map]

/-- The round trip under any parameters: a word of the encoder decodes to its instruction. -/
theorem decodeWith_of_encodeWith (c : Config) (hc : c.wellFormed = true) (i : Instr) (w : InstrWord)
    (h : encodeWith c i = some w) : decodeWith c w = .ok i := by
  simpa using (decodeWith_eq_ok c hc w i.toFields).mpr (inWord_of_encodeWith c i w h)

/-- The default format codes are three different ones (R95). -/
theorem default_wellFormed : Config.default.wellFormed = true := rfl

/-- The round trip at the defaults. -/
@[simp] theorem decode_encode (i : Instr) : decode (encode i) = .ok i :=
  decodeWith_of_encodeWith _ default_wellFormed i _ (encodeWith_default i)

/-- Decode of a run of bytes decodes the word of the first four and hands the rest on (R90). -/
theorem decodeBytes_eq_ok (b0 b1 b2 b3 : Byte) (rest rest' : List Byte) (i : Instr) :
    decodeBytes (b0 :: b1 :: b2 :: b3 :: rest) = .ok (i, rest') ↔
      decode (wordOfBytes b0 b1 b2 b3) = .ok i ∧ rest = rest' := by
  simp only [decodeBytes]
  cases decode (wordOfBytes b0 b1 b2 b3) <;> simp

/-- The bytes of a word decode to what the word does. -/
theorem decodeBytes_bytesOf (w : InstrWord) (rest : List Byte) (i : Instr) (h : decode w = .ok i) :
    decodeBytes (bytesOf w ++ rest) = .ok (i, rest) :=
  (decodeBytes_eq_ok _ _ _ _ rest rest i).mpr ⟨by rwa [wordOfBytes_byteOf], rfl⟩

/-! ### The default opcode table -/

/-- The default map gives a funct to a DSS operation exactly where the table lists it (R104). -/
theorem defaultDssMap_eq_some (f : BitVec 4) (op : DssOp) : defaultDssMap f = some op ↔ f = op.funct := by
  cases op <;> revert f <;> decide

/-- The default map gives a funct to a DSI operation exactly where the table lists it (R104). -/
theorem defaultDsiMap_eq_some (f : BitVec 4) (op : DsiOp) : defaultDsiMap f = some op ↔ f = op.funct := by
  cases op <;> revert f <;> decide

/-- The default map gives a funct to `halt` exactly where the table lists it (R104). -/
theorem defaultIMap_eq_some (f : BitVec 4) (op : IOp) : defaultIMap f = some op ↔ f = op.funct := by
  cases op; revert f; decide

/-- The unassigned functs of each layout (R106). -/
theorem defaultMaps_eq_none (f : BitVec 4) : (defaultDssMap f = none ↔ 14 ≤ f.toNat) ∧
    (defaultDsiMap f = none ↔ 13 ≤ f.toNat) ∧ (defaultIMap f = none ↔ 1 ≤ f.toNat) := by
  revert f; decide

/-- The opcode of the fields under the defaults: funct above format (R91). -/
def Fields.opcode : Fields → BitVec 6
  | .dss op .. => op.funct ++ defaultFormatCode .dss
  | .dsi op .. => op.funct ++ defaultFormatCode .dsi
  | .i op _ => op.funct ++ defaultFormatCode .i

/-- The opcode column of the table is funct above format (R104). -/
theorem Instr.opcode_eq (i : Instr) : i.opcode = i.toFields.opcode := by cases i <;> rfl

/-- The opcode of a word is its funct above its format (R91). -/
theorem opcodeField_eq (w : InstrWord) : opcodeField w = functField w ++ formatField w := by
  apply BitVec.eq_of_getLsbD_eq
  intro k hk
  simp only [opcodeField, functField, formatField, BitVec.getLsbD_extractLsb', BitVec.getLsbD_append]
  grind

/-- A word has an opcode exactly when it has both of its parts. -/
theorem opcodeField_eq_append (w : InstrWord) (f : BitVec 4) (code : BitVec 2) :
    opcodeField w = f ++ code ↔ functField w = f ∧ formatField w = code := by
  rw [opcodeField_eq]
  generalize functField w = f', formatField w = code'
  revert f code f' code'
  decide

/-- Decode at the defaults, by the opcode of the word (R97, R104). -/
theorem decode_eq_ok (w : InstrWord) (i : Instr) : decode w = .ok i ↔ i.toFields.InWord Config.default w := by
  unfold decode
  simpa using decodeWith_eq_ok Config.default default_wellFormed w i.toFields

/-! ### The words of decoded instructions -/

/-- The bits a DSS word has outside its reserved field [31:21] (R94). -/
theorem getLsbD_dssMask : ∀ k < 32, (0x001FFFFF : InstrWord).getLsbD k = decide (k < 21) := by decide

/-- A DSI word has no reserved field (R93). -/
theorem getLsbD_dsiMask : ∀ k < 32, (0xFFFFFFFF : InstrWord).getLsbD k = true := by decide

/-- The bits an I word has outside its reserved field [15:6] (R92). -/
theorem getLsbD_iMask : ∀ k < 32, (0xFFFF003F : InstrWord).getLsbD k = decide (k < 6 ∨ 16 ≤ k) := by decide

/-- Packing the fields of a word in the DSS layout clears its reserved bits [31:21] (R94, R101). -/
theorem packDss_of_fields (w : InstrWord) :
    packDss (formatField w) (functField w) (destField w) (source1Field w) (source2Field w) = w &&& 0x001FFFFF := by
  apply BitVec.eq_of_getLsbD_eq
  intro k hk
  simp only [packDss, formatField, functField, destField, source1Field, source2Field, BitVec.getLsbD_append,
    BitVec.getLsbD_extractLsb', BitVec.getLsbD_and, getLsbD_dssMask k hk]
  grind

/-- Packing the fields of a word in the DSI layout gives the word back: it has no reserved bit (R93). -/
theorem packDsi_of_fields (w : InstrWord) :
    packDsi (formatField w) (functField w) (destField w) (source1Field w) (immField w) = w &&& 0xFFFFFFFF := by
  apply BitVec.eq_of_getLsbD_eq
  intro k hk
  simp only [packDsi, formatField, functField, destField, source1Field, immField, BitVec.getLsbD_append,
    BitVec.getLsbD_extractLsb', BitVec.getLsbD_and, getLsbD_dsiMask k hk]
  grind

/-- Packing the fields of a word in the I layout clears its reserved bits [15:6] (R92, R101). -/
theorem packI_of_fields (w : InstrWord) : packI (formatField w) (functField w) (immField w) = w &&& 0xFFFF003F := by
  apply BitVec.eq_of_getLsbD_eq
  intro k hk
  simp only [packI, formatField, functField, immField, BitVec.getLsbD_append, BitVec.getLsbD_extractLsb',
    BitVec.getLsbD_and, getLsbD_iMask k hk]
  grind

/-! ### The statements -/

/-- Settles O8: an instruction with an opcode has a word, which carries its fields, and those are what decode reads. -/
theorem roundTripHoldsForEveryParameterChoice : Obligations.RoundTripHoldsForEveryParameterChoice := by
  intro c i hc hi
  obtain ⟨w, hw⟩ := Option.isSome_iff_exists.mp ((encodeWith_isSome c i).trans hi)
  exact ⟨w, hw, decodeWith_of_encodeWith c hc i w hw⟩

/-- Settles O7: the round trip at the defaults, for the word and for its four bytes. -/
theorem decodeOfEncodeIsTheInstruction : Obligations.DecodeOfEncodeIsTheInstruction := fun i =>
  ⟨decode_encode i, fun rest => decodeBytes_bytesOf (encode i) rest i (decode_encode i)⟩

/-- Settles O6: the opcode of a word fixes its format and funct, and the default table lists each funct once. -/
theorem decodeReadsTheOpcodeAndEveryField : Obligations.DecodeReadsTheOpcodeAndEveryField := by
  intro w i
  rw [decode_eq_ok, Instr.opcode_eq]
  cases i.toFields <;>
    simp only [Fields.InWord, Fields.opcode, Config.default, opcodeField_eq_append, defaultDssMap_eq_some,
      defaultDsiMap_eq_some, defaultIMap_eq_some] <;>
    exact (and_assoc.trans and_left_comm).symm

/-- Settles O9: the encoder packs the fields that decode read, and packing clears the bits no field holds. -/
theorem decodedWordsAreEncodingsUpToReservedBits : Obligations.DecodedWordsAreEncodingsUpToReservedBits := by
  intro w i h
  have carried := (decode_eq_ok w i).mp h
  unfold encode
  cases hx : i.toFields with
  | dss op d s1 s2 =>
    rw [hx] at carried
    obtain ⟨format, funct, rfl, rfl, rfl⟩ := carried
    refine Eq.trans ?_ (packDss_of_fields w)
    rw [(defaultDssMap_eq_some _ op).mp funct, format]
    rfl
  | dsi op d s1 imm =>
    rw [hx] at carried
    obtain ⟨format, funct, rfl, rfl, rfl⟩ := carried
    refine Eq.trans ?_ (packDsi_of_fields w)
    rw [(defaultDsiMap_eq_some _ op).mp funct, format]
    rfl
  | i op imm =>
    rw [hx] at carried
    obtain ⟨format, funct, rfl⟩ := carried
    refine Eq.trans ?_ (packI_of_fields w)
    rw [(defaultIMap_eq_some _ op).mp funct, format]
    rfl

/-- Settles O10: decode refuses a word for its format or for a funct that its layout's column leaves out. -/
theorem exactlyTheUnmappedWordsAreInvalid : Obligations.ExactlyTheUnmappedWordsAreInvalid := by
  intro w
  obtain ⟨dssNone, dsiNone, iNone⟩ := defaultMaps_eq_none (functField w)
  have shape : DecodeShape Config.default w (decode w) := decodeWith_shape Config.default w
  generalize decode w = r at shape
  cases shape with
  | dss op hf hm | dsi op hf hm | i op hf hm | dssUnmapped hf hm | dsiUnmapped hf hm | iUnmapped hf hm =>
    simp only [Config.default, defaultFormatCode] at hf hm
    simp [hf, hm, ← dssNone, ← dsiNone, ← iNone]
  | noLayout hf =>
    have none_zero : formatField w = 0b00 := by
      have h1 := hf .dss
      have h2 := hf .dsi
      have h3 := hf .i
      simp only [Config.default, defaultFormatCode] at h1 h2 h3
      bv_omega
    simp [none_zero]

/-- Settles O5: each word is evaluated. -/
theorem theSpecsExampleWordsDecode : Obligations.TheSpecsExampleWordsDecode :=
  ⟨rfl, rfl, rfl, rfl, rfl, rfl, rfl, rfl⟩

end Sys2Proof
end

section
/-! Families 10_state.md and 20_memory.md: the invariant of the state (R31, R60) and that nothing hidden steers a step (R48,
R75). First what every update of the state keeps of each; then the commit, the step and the host's transactions; then the
statements. -/

namespace Sys2Proof.Machine

/-! ### The invariant, update by update -/

/-- The two halves of the invariant. -/
theorem State.wf_iff (s : State) : s.wf = true ↔ Memory.wf s.mem = true ∧ s.regs[0] = 0 := by
  simp [State.wf]

@[simp] theorem State.setPc_wf (s : State) (v : Word) : (s.setPc v).wf = s.wf := rfl
@[simp] theorem State.setHalted_wf (s : State) (b : Bool) : (s.setHalted b).wf = s.wf := rfl
@[simp] theorem State.setCycle_wf (s : State) (v : Word) : (s.setCycle v).wf = s.wf := rfl

/-- A register write keeps the invariant: nothing writes the slot of register 0 (R31). -/
theorem State.writeReg_wf (s : State) (i : RegIdx) (v : Word) (h : s.wf = true) : (s.writeReg i v).wf = true := by
  obtain ⟨hmem, hzero⟩ := s.wf_iff.mp h
  exact (State.wf_iff _).mpr ⟨by rwa [State.writeReg_mem], by rwa [State.writeReg_slot_zero]⟩

/-- A new memory in canonical form keeps the invariant. -/
theorem State.setMem_wf (s : State) (m : Memory) (h : s.wf = true) (hm : Memory.wf m = true) :
    (s.setMem m).wf = true :=
  (State.wf_iff _).mpr ⟨hm, (s.wf_iff.mp h).2⟩

/-- The memory of a state that meets the invariant is in canonical form. -/
theorem State.mem_wf (s : State) (h : s.wf = true) : Memory.wf s.mem = true := (s.wf_iff.mp h).1

/-- The commit of any effect keeps the invariant. -/
theorem commit_wf (c : Config) (e : Effect) (s : State) (h : s.wf = true) : (commit c e s).wf = true := by
  have regWritten : (s.applyReg e.reg).wf = true := by
    cases e.reg with
    | none => exact h
    | some w => exact s.writeReg_wf w.1 w.2 h
  have memWritten : ((s.applyReg e.reg).applyMem e.mem).wf = true := by
    cases e.mem with
    | none => exact regWritten
    | some w => exact State.setMem_wf _ _ regWritten (writeHalf_wf _ _ _ (State.mem_wf _ regWritten))
  cases hh : e.halt with
  | true => simpa [commit_halt c e s hh] using h
  | false => simpa [commit_run c e s hh] using memWritten

/-- A tick under any parameters keeps the invariant: it leaves the state or commits an effect. -/
theorem tick_wf (c : Config) (s : State) (h : s.wf = true) : (tick c s).2.wf = true := by
  have shape := tick_shape c s
  generalize tick c s = r at shape
  cases shape with
  | halted _ => exact h
  | failed _ _ _ => exact h
  | committed w i e _ _ _ _ => exact commit_wf c e s h

/-- A host write keeps the invariant. -/
theorem applyWrite_wf (c : Config) (w : HostWrite) (s : State) (h : s.wf = true) : (applyWrite c w s).wf = true := by
  cases w with
  | reg i v => exact s.writeReg_wf i v h
  | pc v => exact h
  | cycle v => exact h
  | byte a b => exact s.setMem_wf _ h (writeByte_wf _ _ _ (s.mem_wf h))
  | half a v =>
    simp only [applyWrite]
    split
    · exact s.setMem_wf _ h (writeHalf_wf _ _ _ (s.mem_wf h))
    · exact h

/-- Where the load does not fail the file fits the region and the address space (R82). -/
theorem loadFails_eq_false (file : List Byte) (base : Word) (size : Nat) :
    loadFails file base size = false ↔ file.length ≤ size ∧ base.toNat + file.length ≤ 65536 := by
  simp [loadFails]

/-- A program load keeps the invariant, also a failed one with any draw: neither stores past 0xFFFF (R82). -/
theorem load_wf (draw file : List Byte) (base : Word) (size : Nat) (s : State) (h : s.wf = true) :
    (load draw file base size s).2.wf = true := by
  have inSpace := base.isLt
  unfold load
  split
  case isTrue _ =>
    refine s.setMem_wf _ h (storeBytes_wf _ _ _ (s.mem_wf h) ?_)
    rw [List.length_take]
    omega
  case isFalse fits =>
    obtain ⟨_, fitsSpace⟩ := (loadFails_eq_false file base size).mp (Bool.eq_false_iff.mpr fits)
    exact s.setMem_wf _ h (storeBytes_wf _ _ _ (s.mem_wf h) fitsSpace)

/-! ### States that no read tells apart -/

/-- A byte read depends on what the memory holds at the address. -/
theorem readByte_congr (m m' : Memory) (a : Word) (h : Memory.read m' a.toNat = Memory.read m a.toNat) :
    readByte m' a = readByte m a := by
  simp [readByte, h]

/-- A halfword read depends on what the memory holds, not on how it is written down. -/
theorem readHalf_congr (c : Config) (m m' : Memory) (a : Word) (h : ∀ k, Memory.read m' k = Memory.read m k) :
    readHalf c m' a = readHalf c m a := by
  simp only [readHalf, readByte_congr m m' _ (h _)]

/-- So does a word read. -/
theorem readWord_congr (c : Config) (m m' : Memory) (a : Word) (h : ∀ k, Memory.read m' k = Memory.read m k) :
    readWord c m' a = readWord c m a := by
  simp only [readWord, readByte_congr m m' _ (h _)]

/-- A fetch answers alike in states that no read tells apart. -/
theorem fetch_of_alike (c : Config) (s s' : State) (h : Alike s s') : fetch c s' = fetch c s := by
  obtain ⟨-, hpc, -, -, hmem⟩ := h
  simp only [fetch, hpc, readWord_congr c s.mem s'.mem _ hmem]

/-- A load from a given address depends on what the memory holds and on nothing else. -/
theorem loadHalf_congr (c : Config) (d : RegIdx) (ea : Word) (s s' : State)
    (h : ∀ k, Memory.read s'.mem k = Memory.read s.mem k) : loadHalf c d ea s' = loadHalf c d ea s := by
  simp only [loadHalf, readHalf_congr c s.mem s'.mem ea h]

/-- Every effect is computed from register reads, pc and byte reads: it is the same in states that no read tells apart. -/
theorem effectOf_of_alike (c : Config) (i : Instr) (s s' : State) (h : Alike s s') :
    effectOf c i s' = effectOf c i s := by
  obtain ⟨hreg, hpc, -, -, hmem⟩ := h
  have read : s'.readReg = s.readReg := funext hreg
  cases i with
  | lh d s1 imm => simp only [effectOf, lhEffect, eaImm, read, loadHalf_congr c d _ s s' hmem]
  | lhx d s1 s2 => simp only [effectOf, lhxEffect, eaIndex, read, loadHalf_congr c d _ s s' hmem]
  | sh d s1 imm => simp only [effectOf, shEffect, storeHalf, eaImm, read]
  | shx d s1 s2 => simp only [effectOf, shxEffect, storeHalf, eaIndex, read]
  | jlz d s1 imm => simp only [effectOf, jlzEffect, jumpAndLink, linkValue, read, hpc]
  | jlo d s1 imm => simp only [effectOf, jloEffect, jumpAndLink, linkValue, read, hpc]
  | jlrz d s1 s2 => simp only [effectOf, jlrzEffect, jumpAndLink, linkValue, read, hpc]
  | jlro d s1 s2 => simp only [effectOf, jlroEffect, jumpAndLink, linkValue, read, hpc]
  | halt imm => rfl
  | add | sub | addi => simp only [effectOf, addEffect, subEffect, addiEffect, read]
  | and | or | xor | andi | ori | xori =>
    simp only [effectOf, andEffect, orEffect, xorEffect, andiEffect, oriEffect, xoriEffect, read]
  | sll | srl | sra | slli | srli | srai =>
    simp only [effectOf, sllEffect, srlEffect, sraEffect, slliEffect, srliEffect, sraiEffect, read]
  | slt | sltu | slti | sltiu => simp only [effectOf, sltEffect, sltuEffect, sltiEffect, sltiuEffect, read]

/-- Memories that hold the same bytes hold the same bytes after the same halfword write. -/
theorem writeHalf_congr (m m' : Memory) (a v : Word) (h : ∀ k, Memory.read m' k = Memory.read m k) (k : Nat) :
    Memory.read (writeHalf m' a v) k = Memory.read (writeHalf m a v) k := by
  simp only [read_writeHalf, h]

/-- A register write keeps states alike. -/
theorem applyReg_alike (s s' : State) (r : Option (RegIdx × Word)) (h : Alike s s') :
    Alike (s.applyReg r) (s'.applyReg r) := by
  obtain ⟨hreg, hpc, hhalt, hcyc, hmem⟩ := h
  refine ⟨fun j => ?_, by simp [hpc], by simp [hhalt], by simp [hcyc], fun k => by simp [hmem]⟩
  cases r with
  | none => exact hreg j
  | some w => simp only [State.applyReg, State.readReg_writeReg, hreg]

/-- A halfword write keeps states alike. -/
theorem applyMem_alike (s s' : State) (r : Option (Word × Word)) (h : Alike s s') :
    Alike (s.applyMem r) (s'.applyMem r) := by
  obtain ⟨hreg, hpc, hhalt, hcyc, hmem⟩ := h
  refine ⟨fun j => by simp [hreg], by simp [hpc], by simp [hhalt], by simp [hcyc], fun k => ?_⟩
  cases r with
  | none => exact hmem k
  | some w => exact writeHalf_congr s.mem s'.mem w.1 w.2 hmem k

/-- The commit of one effect keeps states alike. -/
theorem commit_alike (c : Config) (e : Effect) (s s' : State) (h : Alike s s') :
    Alike (commit c e s) (commit c e s') := by
  obtain ⟨hreg, hpc, hhalt, hcyc, hmem⟩ := h
  cases hh : e.halt with
  | true =>
    rw [commit_halt c e s hh, commit_halt c e s' hh]
    exact ⟨hreg, hpc, rfl, by simp [hcyc], hmem⟩
  | false =>
    rw [commit_run c e s hh, commit_run c e s' hh]
    obtain ⟨hreg', -, hhalt', -, hmem'⟩ :=
      applyMem_alike _ _ e.mem (applyReg_alike s s' e.reg ⟨hreg, hpc, hhalt, hcyc, hmem⟩)
    exact ⟨hreg', by simp [hpc], hhalt', by simp [hcyc], hmem'⟩

/-- Two answers that no read tells apart: alike next states, or one and the same stop. -/
def AlikeAnswers : Answer → Answer → Prop
  | .next t, .next t' => Alike t t'
  | .fault f, .fault f' => f' = f
  | .refused r, .refused r' => r' = r
  | _, _ => False

/-- An instruction answers alike in states that no read tells apart. -/
theorem execWith_alike (c : Config) (i : Instr) (s s' : State) (h : Alike s s') :
    AlikeAnswers (execWith c i s) (execWith c i s') := by
  unfold execWith
  rw [effectOf_of_alike c i s s' h]
  cases effectOf c i s with
  | error f => rfl
  | ok e => exact commit_alike c e s s' h

/-- A tick answers alike in states that no read tells apart: it fetches the same word and runs the same instruction. -/
theorem tickWith_alike (c : Config) (s s' : State) (h : Alike s s') : AlikeAnswers (tickWith c s) (tickWith c s') := by
  have sameFetch := fetch_of_alike c s s' h
  obtain ⟨-, -, hhalt, -, -⟩ := id h
  unfold tickWith tickAround
  rw [hhalt, sameFetch]
  cases s.halted with
  | true => exact h
  | false =>
    cases fetch c s with
    | error f => rfl
    | ok w =>
      simp only [Bool.false_eq_true, if_false]
      cases decodeWith c w with
      | error r => rfl
      | ok i => exact execWith_alike c i s s' h

/-! ### The statements -/

/-- Settles O47: the step fetches, decodes and computes its effect from reads alone, and its commit writes through them. -/
theorem aStepDependsOnlyOnWhatCanBeRead : Obligations.AStepDependsOnlyOnWhatCanBeRead := by
  intro s s' h
  have alike := tickWith_alike Config.default s s' h
  rw [← step_eq_tickWith, ← step_eq_tickWith] at alike
  refine ⟨fun t ht => ?_, fun f hf => ?_⟩
  · rw [ht] at alike
    cases hs' : step s' with
    | next t' => exact ⟨t', rfl, by simpa [AlikeAnswers, hs'] using alike⟩
    | fault f => simp [AlikeAnswers, hs'] at alike
    | refused r => simp [AlikeAnswers, hs'] at alike
  · rw [hf] at alike
    cases hs' : step s' with
    | next t' => simp [AlikeAnswers, hs'] at alike
    | fault f' => rw [hs'] at alike; rw [show f' = f from alike]
    | refused r => simp [AlikeAnswers, hs'] at alike

/-- A step's next state is the state after its tick. -/
theorem tick_of_step (s t : State) (h : step s = .next t) : (tick Config.default s).2 = t := by
  simp [tick, ← step_eq_tickWith, h, stateAfter]

/-- Settles O49: the step is a tick, which leaves the state or commits an effect. -/
theorem everyStepKeepsTheInvariant : Obligations.EveryStepKeepsTheInvariant := by
  intro s t h hstep
  rw [← tick_of_step s t hstep]
  exact tick_wf Config.default s h

/-- Settles O50: by the kind of transaction; the resets write neither registers nor memory. -/
theorem everyTransactionKeepsTheInvariant : Obligations.EveryTransactionKeepsTheInvariant := by
  intro c x s h
  cases x with
  | assertReset => exact h
  | deassertReset => exact h
  | tick => exact tick_wf c s h
  | write w => exact applyWrite_wf c w s h
  | load draw file base size => exact load_wf draw file base size s h

/-- Settles O48: memory is empty and every register's slot holds 0. -/
theorem resetMeetsTheInvariant : Obligations.ResetMeetsTheInvariant :=
  State.reset.wf_iff.mpr ⟨reset_mem_wf, by simp [State.reset]⟩

end Sys2Proof.Machine
end

section
/-! Family 20_memory.md, sections 1 to 4: what the accesses read after the writes (R61 to R68), and the facts about halfwords,
words and shifts that the instruction families use. -/

namespace Sys2Proof.Machine

/-! ### Addresses and words -/

/-- The byte after an address, written as the statements write it. -/
@[simp] theorem addrAfter_one (a : Word) : addrAfter a 1 = a + 1 := rfl

/-- The other bytes of an instruction stand elsewhere than its first one, past 0xFFFF too (R67). -/
theorem addrAfter_toNat_ne_self (a : Word) (k : Nat) (h : 0 < k ∧ k < 4) : (addrAfter a k).toNat ≠ a.toNat := by
  simpa only [addrAfter_zero] using addrAfter_toNat_ne a k 0 h.2 (by decide) (Nat.ne_of_gt h.1)

/-- Four bytes of which the low two are a halfword's (R63, R65). -/
theorem wordOfBytes_of_half (v : Word) (b2 b3 : Byte) :
    wordOfBytes (v.extractLsb' 0 8) (v.extractLsb' 8 8) b2 b3 = b3 ++ b2 ++ v := by
  apply BitVec.eq_of_getLsbD_eq
  intro k hk
  simp only [wordOfBytes, BitVec.getLsbD_append, BitVec.getLsbD_extractLsb']
  grind

/-- Four bytes that are two halfwords' (R65). -/
theorem wordOfBytes_of_halves (h0 h1 : Word) :
    wordOfBytes (h0.extractLsb' 0 8) (h0.extractLsb' 8 8) (h1.extractLsb' 0 8) (h1.extractLsb' 8 8) = h1 ++ h0 := by
  rw [wordOfBytes_of_half, extractLsb'_append_halves]

/-! ### Halfword and word reads at the defaults -/

/-- Two written bytes are read as a halfword, the one at the address low (R62). -/
theorem readHalf_default_of_bytes (m : Memory) (a : Word) (lo hi : Byte) (hlo : Memory.read m a.toNat = some lo)
    (hhi : Memory.read m (a + 1).toNat = some hi) : readHalf Config.default m a = .ok (hi ++ lo) :=
  (readHalf_eq_ok _ m a _).mpr ⟨edgeCheck_default a 2, lo, hi, hlo, hhi, rfl⟩

/-- Four written bytes are read as a word (R63). -/
theorem readWord_default_of_bytes (m : Memory) (a : Word) (b0 b1 b2 b3 : Byte)
    (h0 : Memory.read m a.toNat = some b0) (h1 : Memory.read m (addrAfter a 1).toNat = some b1)
    (h2 : Memory.read m (addrAfter a 2).toNat = some b2) (h3 : Memory.read m (addrAfter a 3).toNat = some b3) :
    readWord Config.default m a = .ok (wordOfBytes b0 b1 b2 b3) :=
  (readWord_eq_ok _ m a _).mpr ⟨edgeCheck_default a 4, b0, b1, b2, b3, h0, h1, h2, h3, rfl⟩

/-- Four written bytes that are a word's are read as the word (R63). -/
theorem readWord_default_of_word (m : Memory) (a : Word) (w : InstrWord)
    (h0 : Memory.read m a.toNat = some (byteOf w 0)) (h1 : Memory.read m (addrAfter a 1).toNat = some (byteOf w 1))
    (h2 : Memory.read m (addrAfter a 2).toNat = some (byteOf w 2))
    (h3 : Memory.read m (addrAfter a 3).toNat = some (byteOf w 3)) : readWord Config.default m a = .ok w := by
  rw [readWord_default_of_bytes m a _ _ _ _ h0 h1 h2 h3, wordOfBytes_byteOf]

/-- A halfword whose first byte nothing has written: the read names that byte (R68). -/
theorem readHalf_default_of_first_unwritten (m : Memory) (a : Word) (h : Memory.read m a.toNat = none) :
    readHalf Config.default m a = .error (.unwrittenByte a) := by
  have first := (readByte_eq_error m a _).mpr ⟨h, rfl⟩
  simp [readHalf, edgeCheck_default, first]

/-- A halfword whose second byte alone is unwritten: the read names that one (R68). -/
theorem readHalf_default_of_second_unwritten (m : Memory) (a : Word) (lo : Byte) (hlo : Memory.read m a.toNat = some lo)
    (h : Memory.read m (a + 1).toNat = none) : readHalf Config.default m a = .error (.unwrittenByte (a + 1)) := by
  have first := (readByte_eq_ok m a lo).mpr hlo
  have second := (readByte_eq_error m (a + 1) _).mpr ⟨h, rfl⟩
  simp only [readHalf, edgeCheck_default, addrAfter_one, first, second]

/-- By default a halfword read fails only at an unwritten byte of the halfword (R68). -/
theorem readHalf_default_eq_error (m : Memory) (a : Word) (f : Fault) (h : readHalf Config.default m a = .error f) :
    ∃ b : Word, f = .unwrittenByte b ∧ Memory.read m b.toNat = none ∧ (b = a ∨ b = a + 1) := by
  cases hlo : Memory.read m a.toNat with
  | none =>
    rw [readHalf_default_of_first_unwritten m a hlo] at h
    cases h
    exact ⟨a, rfl, hlo, .inl rfl⟩
  | some lo =>
    cases hhi : Memory.read m (a + 1).toNat with
    | none =>
      rw [readHalf_default_of_second_unwritten m a lo hlo hhi] at h
      cases h
      exact ⟨a + 1, rfl, hhi, .inr rfl⟩
    | some hi =>
      rw [readHalf_default_of_bytes m a lo hi hlo hhi] at h
      cases h

/-! ### Halfwords after a halfword write -/

/-- The low byte of a halfword write, also where the high byte wraps to 0x0000 (R64). -/
theorem read_writeHalf_low (m : Memory) (a v : Word) :
    Memory.read (writeHalf m a v) a.toNat = some (v.extractLsb' 0 8) := by
  rw [read_writeHalf, if_neg (addr_toNat_ne (addrAfter_one_ne a).symm), if_pos rfl]

/-- The high byte of a halfword write (R64). -/
theorem read_writeHalf_high (m : Memory) (a v : Word) :
    Memory.read (writeHalf m a v) (a + 1).toNat = some (v.extractLsb' 8 8) := by
  rw [read_writeHalf, addrAfter_one, if_pos rfl]

/-- A halfword write leaves every other byte (R64). -/
theorem read_writeHalf_other (m : Memory) (a v : Word) (k : Nat) (low : k ≠ a.toNat) (high : k ≠ (a + 1).toNat) :
    Memory.read (writeHalf m a v) k = Memory.read m k := by
  rw [read_writeHalf, addrAfter_one, if_neg high, if_neg low]

/-- A halfword written is read back at every address (R65). -/
theorem readHalf_writeHalf (m : Memory) (a v : Word) : readHalf Config.default (writeHalf m a v) a = .ok v := by
  rw [readHalf_default_of_bytes _ a _ _ (read_writeHalf_low m a v) (read_writeHalf_high m a v),
    extractLsb'_append_halves]

/-! ### Arithmetic right shifts -/

/-- Dividing a 16-bit signed value by 2^15 or by more leaves its sign alone. -/
theorem toInt_div_two_pow_of_ge (v : Word) (n : Nat) (h : 15 ≤ n) :
    v.toInt / 2 ^ n = if v.toInt < 0 then -1 else 0 := by
  have low := v.le_toInt
  have high := v.toInt_lt
  have pow_le : (2 : Int) ^ 15 ≤ 2 ^ n := by exact_mod_cast Nat.pow_le_pow_right (by decide) h
  split
  case isTrue neg => exact Int.ediv_eq_neg_one_of_neg_of_le neg (by omega)
  case isFalse nonneg => exact Int.ediv_eq_zero_of_lt (by omega) (by omega)

/-- `SHR_A` is the arithmetic right shift by the whole amount (R220). -/
theorem shrA_eq_sshiftRight (v : Word) (n : Nat) : shrA v n = v.sshiftRight n := by
  unfold shrA BitVec.sshiftRight
  rw [Int.shiftRight_eq_div_pow]
  rcases Nat.le_total n 15 with small | large
  · rw [Nat.min_eq_left small]
    norm_cast
  · rw [Nat.min_eq_right large, toInt_div_two_pow_of_ge v 15 (Nat.le_refl 15)]
    rw [← toInt_div_two_pow_of_ge v n large]
    norm_cast

/-- From 16 on an arithmetic right shift leaves the sign bit alone in every place (R226). -/
theorem sshiftRight_of_ge (v : Word) (n : Nat) (h : 16 ≤ n) :
    v.sshiftRight n = if v.getLsbD 15 then 0xFFFF else 0 := by
  apply BitVec.eq_of_getLsbD_eq
  intro k hk
  have sign : v.msb = v.getLsbD 15 := BitVec.msb_eq_getLsbD_last v
  have ones : (0xFFFF : Word) = BitVec.allOnes 16 := rfl
  rw [BitVec.getLsbD_sshiftRight, if_neg (by omega), sign, ones]
  cases v.getLsbD 15 with
  | false => simp
  | true =>
    rw [if_pos rfl, BitVec.getLsbD_allOnes]
    simp [hk]

/-! ### The statements -/

/-- Settles O2: what a byte reads after a byte write and after a halfword write. -/
theorem writesDecomposeLittleEndian : Obligations.WritesDecomposeLittleEndian := by
  intro m a
  refine ⟨fun b => ⟨?_, fun k hk => ?_⟩, fun v => ⟨?_, ?_, fun k => read_writeHalf_other m a v k⟩⟩
  · rw [readByte_eq_ok, read_writeByte, if_pos rfl]
  · rw [read_writeByte, if_neg hk]
  · rw [readByte_eq_ok, read_writeHalf_low]
  · rw [readByte_eq_ok, addrAfter_one, read_writeHalf_high]

/-- Settles O3: the second halfword stands at the two addresses that the first one's write and read do not touch. -/
theorem halfwordStoresReadBackAndFormWords : Obligations.HalfwordStoresReadBackAndFormWords := by
  intro m a h0 h1
  refine ⟨readHalf_writeHalf m a h0, ?_⟩
  have apart (i j : Nat) (h : i < 4 ∧ j < 4 ∧ i ≠ j := by decide) := addrAfter_toNat_ne a i j h.1 h.2.1 h.2.2
  have start (k : Nat) (h : 0 < k ∧ k < 4 := by decide) := (addrAfter_toNat_ne_self a k h).symm
  have high : addrAfter a 2 + 1 = addrAfter a 3 := addrAfter_addrAfter a 2 1
  rw [← wordOfBytes_of_halves]
  refine readWord_default_of_bytes _ a _ _ _ _ ?_ ?_ (read_writeHalf_low _ _ h1) ?_
  · rw [read_writeHalf_other _ _ _ _ (start 2) (high ▸ start 3), read_writeHalf_low]
  · rw [read_writeHalf_other _ _ _ _ (apart 1 2) (high ▸ apart 1 3), addrAfter_one, read_writeHalf_high]
  · rw [← high, read_writeHalf_high]

end Sys2Proof.Machine
end

section
/-! Families 41_arithmetic.md to 47_halt.md: what each instruction writes and what it leaves (R180 to R301). First one rule per
shape of effect (R149): what the state is after it; then each statement, which names the effect of its instruction. -/

namespace Sys2Proof.Machine

/-! ### One rule per shape of effect -/

/-- An instruction whose effect is a register write completes, and writes that value and nothing else (R145). -/
theorem execWith_wroteReg (c : Config) (i : Instr) (s : State) (d : RegIdx) (v : Word)
    (h : effectOf c i s = writesReg d v) : ∃ t, execWith c i s = .next t ∧ WroteReg d v s t := by
  refine ⟨_, by rw [execWith, h]; exact commit_writesReg c d v s, fun j => ?_, fun a => ?_, rfl, rfl, ?_⟩
  · simp [State.readReg_writeReg]
  · simp
  · simp

/-- The same at the defaults. -/
theorem exec_wroteReg (i : Instr) (s : State) (d : RegIdx) (v : Word)
    (h : effectOf Config.default i s = writesReg d v) : ∃ t, exec i s = .next t ∧ WroteReg d v s t := by
  rw [exec_eq_execWith]
  exact execWith_wroteReg Config.default i s d v h

/-- A load of two written bytes is the write of their halfword (R260, R262). -/
theorem loadHalf_of_bytes (d : RegIdx) (ea : Word) (s : State) (lo hi : Byte)
    (hlo : Memory.read s.mem ea.toNat = some lo) (hhi : Memory.read s.mem (ea + 1).toNat = some hi) :
    loadHalf Config.default d ea s = writesReg d (hi ++ lo) := by
  simp only [loadHalf, readHalf_default_of_bytes s.mem ea lo hi hlo hhi]

/-- An instruction whose effect fails stops with that failure (R15). -/
theorem execWith_fault (c : Config) (i : Instr) (s : State) (f : Fault) (h : effectOf c i s = .error f) :
    execWith c i s = .fault f := (finish_eq_fault c _ s f).mpr h

/-- A load whose read fails stops with the read's failure. -/
theorem exec_load_fault (i : Instr) (s : State) (d : RegIdx) (ea : Word) (f : Fault)
    (h : effectOf Config.default i s = loadHalf Config.default d ea s)
    (hr : readHalf Config.default s.mem ea = .error f) : exec i s = .fault f := by
  rw [exec_eq_execWith]
  exact execWith_fault Config.default i s f (by rw [h, loadHalf, hr])

/-- An instruction whose effect is a halfword store completes by default and writes the two bytes of `x[d]` (R261, R263). -/
theorem exec_storedHalf (i : Instr) (s : State) (d : RegIdx) (ea : Word)
    (h : effectOf Config.default i s = storeHalf Config.default d ea s) :
    ∃ t, exec i s = .next t ∧ StoredHalf ea (s.readReg d) s t := by
  rw [exec_eq_execWith, execWith, h, finish_storeHalf, edgeCheck_default]
  exact ⟨_, rfl, read_writeHalf_low _ _ _, read_writeHalf_high _ _ _, read_writeHalf_other _ _ _, fun _ => rfl, rfl,
    rfl, rfl⟩

/-- An instruction whose effect is a jump-and-link completes: it links and jumps where its condition holds and otherwise
moves pc and the counter alone (R285). -/
theorem exec_jumped (i : Instr) (s : State) (p : Prop) [Decidable p] (d : RegIdx) (target : Word)
    (h : effectOf Config.default i s = jumpAndLink (decide p) d target s) :
    ∃ t, exec i s = .next t ∧ if p then Jumped d target s t else FellThrough s t := by
  rw [exec_eq_execWith, execWith, h, finish_jumpAndLink]
  refine ⟨_, rfl, ?_⟩
  by_cases hp : p
  · simp only [hp, decide_true, if_true]
    exact ⟨fun j => State.readReg_writeReg s d j _, fun a => by simp, rfl, rfl, by simp⟩
  · simp only [hp, decide_false, if_false, Bool.false_eq_true]
    exact ⟨fun _ => rfl, fun _ => rfl, rfl, rfl, rfl⟩

/-! ### Opcodes at the defaults -/

/-- A word with the opcode of a DSS operation decodes to that operation of its fields, whatever its reserved bits. -/
theorem decodesDss_of_funct (op : DssOp) : DecodesDss (op.funct ++ defaultFormatCode .dss) op.toInstr := by
  intro w hw
  obtain ⟨funct, format⟩ := (opcodeField_eq_append w _ _).mp hw
  rw [decode_eq_ok, DssOp.toFields_toInstr]
  exact ⟨format, (defaultDssMap_eq_some _ op).mpr funct, rfl, rfl, rfl⟩

/-- A word with the opcode of a DSI operation decodes to that operation of its fields. -/
theorem decodesDsi_of_funct (op : DsiOp) : DecodesDsi (op.funct ++ defaultFormatCode .dsi) op.toInstr := by
  intro w hw
  obtain ⟨funct, format⟩ := (opcodeField_eq_append w _ _).mp hw
  rw [decode_eq_ok, DsiOp.toFields_toInstr]
  exact ⟨format, (defaultDsiMap_eq_some _ op).mpr funct, rfl, rfl, rfl⟩

/-! ### Arithmetic and logic -/

/-- Settles O11: the effect of each is the write of its result. -/
theorem addAndSubWriteSumAndDifference : Obligations.AddAndSubWriteSumAndDifference := fun d s1 s2 s =>
  ⟨exec_wroteReg (.add d s1 s2) s d _ rfl, exec_wroteReg (.sub d s1 s2) s d _ rfl⟩

/-- Settles O12: the table's opcode and the write of the sum. -/
theorem addiAddsItsImmediate : Obligations.AddiAddsItsImmediate :=
  ⟨decodesDsi_of_funct .addi, fun d s1 imm s => exec_wroteReg (.addi d s1 imm) s d _ rfl⟩

/-- A register write of register 0 moves pc and the counter alone (R31). -/
theorem fellThrough_of_wroteReg_zero (v : Word) (s t : State) (h : WroteReg 0 v s t) : FellThrough s t := by
  obtain ⟨regs, rest⟩ := h
  exact ⟨fun j => by simpa using regs j, rest⟩

/-- Settles O13: the no-op is the write of register 0. -/
theorem orWritesTheBitwiseOr : Obligations.OrWritesTheBitwiseOr := by
  refine ⟨decodesDss_of_funct .or, fun d s1 s2 s => ⟨exec_wroteReg (.or d s1 s2) s d _ rfl, ?_⟩⟩
  obtain ⟨t, next, wrote⟩ := exec_wroteReg (.or 0 0 0) s 0 _ rfl
  exact ⟨t, next, fellThrough_of_wroteReg_zero _ s t wrote⟩

/-- Settles O14: the table's opcode and the write of the result. -/
theorem oriWritesTheBitwiseOr : Obligations.OriWritesTheBitwiseOr :=
  ⟨decodesDsi_of_funct .ori, fun d s1 imm s => exec_wroteReg (.ori d s1 imm) s d _ rfl⟩

/-- Settles O15: the effect of each is the write of its result. -/
theorem andAndXorWriteTheBitwiseResult : Obligations.AndAndXorWriteTheBitwiseResult := fun d s1 s2 imm s =>
  ⟨exec_wroteReg (.and d s1 s2) s d _ rfl, exec_wroteReg (.xor d s1 s2) s d _ rfl,
    exec_wroteReg (.andi d s1 imm) s d _ rfl, exec_wroteReg (.xori d s1 imm) s d _ rfl⟩

/-! ### Shifts -/

/-- The arithmetic right shift at the defaults is by the whole amount (R220, D14). -/
theorem shift_default_rightArithmetic (v n : Word) :
    shift Config.default .rightArithmetic v n = v.sshiftRight n.toNat :=
  (shift_full Config.default _ v n rfl).trans (shrA_eq_sshiftRight v n.toNat)

/-- Settles O16: at the defaults `shift` is the shift function of its kind by the whole amount. -/
theorem registerShiftsAndSlliShiftByTheWholeAmount : Obligations.RegisterShiftsAndSlliShiftByTheWholeAmount :=
  fun d s1 s2 imm s =>
    ⟨exec_wroteReg (.sll d s1 s2) s d _ rfl, exec_wroteReg (.srl d s1 s2) s d _ rfl,
      exec_wroteReg (.sra d s1 s2) s d _ (congrArg (writesReg d) (shift_default_rightArithmetic _ _)),
      exec_wroteReg (.slli d s1 imm) s d _ rfl⟩

/-- Settles O17: at the defaults `shift` is `shrL` by the whole amount. -/
theorem srliShiftsZerosIn : Obligations.SrliShiftsZerosIn :=
  ⟨decodesDsi_of_funct .srli, fun d s1 imm s => exec_wroteReg (.srli d s1 imm) s d _ rfl⟩

/-- Settles O18: from 16 on the arithmetic shift by the whole amount leaves the sign bit in every place. -/
theorem sraiCopiesTheSignIn : Obligations.SraiCopiesTheSignIn := by
  refine ⟨decodesDsi_of_funct .srai, fun d s1 imm s => ?_⟩
  refine exec_wroteReg (.srai d s1 imm) s d _ (congrArg (writesReg d) ?_)
  rw [shift_default_rightArithmetic]
  split
  case isTrue _ => rfl
  case isFalse large => exact sshiftRight_of_ge _ _ (Nat.le_of_not_lt large)

/-- Settles O19: each rule for the amount is one equation of `shift`. -/
theorem shiftAmountRuleAlternatives : Obligations.ShiftAmountRuleAlternatives := by
  intro c d s1 imm s
  refine ⟨fun mod16 => ⟨?_, ?_, ?_⟩, fun draw small => ?_, fun draw large => ?_⟩
  · exact execWith_wroteReg c (.slli d s1 imm) s d _ (congrArg (writesReg d) (shift_mod16 c .left _ imm mod16))
  · exact execWith_wroteReg c (.srli d s1 imm) s d _ (congrArg (writesReg d) (shift_mod16 c .rightLogical _ imm mod16))
  · exact execWith_wroteReg c (.srai d s1 imm) s d _
      (congrArg (writesReg d) (shift_mod16 c .rightArithmetic _ imm mod16))
  · refine execWith_wroteReg c (.slli d s1 imm) s d _ (congrArg (writesReg d) ?_)
    rw [shift_draw c .left _ imm draw, if_pos small, shiftFull]
  · refine execWith_wroteReg c (.slli d s1 imm) s d _ (congrArg (writesReg d) ?_)
    rw [shift_draw c .left _ imm draw, if_neg (Nat.not_lt.mpr large)]

/-! ### Comparisons -/

/-- `bool01` of a relation (R16). -/
theorem bool01_decide (p : Prop) [Decidable p] : bool01 (decide p) = if p then 1 else 0 := by simp [bool01]

/-- Settles O20: the effect of each is the write of `bool01` of its relation. -/
theorem comparisonsWriteZeroOrOne : Obligations.ComparisonsWriteZeroOrOne := fun d s1 s2 imm s =>
  ⟨exec_wroteReg (.slt d s1 s2) s d _ (congrArg (writesReg d) (bool01_decide _)),
    exec_wroteReg (.sltu d s1 s2) s d _ (congrArg (writesReg d) (bool01_decide _)),
    exec_wroteReg (.slti d s1 imm) s d _ (congrArg (writesReg d) (bool01_decide _)),
    exec_wroteReg (.sltiu d s1 imm) s d _ (congrArg (writesReg d) (bool01_decide _))⟩

/-! ### Jumps -/

/-- `jlz` by its condition (R280). -/
theorem exec_jlz (d s1 : RegIdx) (imm : Word) (s : State) : ∃ t, exec (.jlz d s1 imm) s = .next t ∧
    if s.readReg s1 = 0 then Jumped d imm s t else FellThrough s t :=
  exec_jumped (.jlz d s1 imm) s _ d imm rfl

/-- `jlo` by its condition (R281). -/
theorem exec_jlo (d s1 : RegIdx) (imm : Word) (s : State) : ∃ t, exec (.jlo d s1 imm) s = .next t ∧
    if s.readReg s1 = 1 then Jumped d imm s t else FellThrough s t :=
  exec_jumped (.jlo d s1 imm) s _ d imm rfl

/-- Settles O25: the table's opcode and the jump-and-link on zero. -/
theorem jlzJumpsOnZero : Obligations.JlzJumpsOnZero := ⟨decodesDsi_of_funct .jlz, exec_jlz⟩

/-- Settles O26: the table's opcode and the jump-and-link on zero; the target is read before the link is written. -/
theorem jlrzJumpsOnZero : Obligations.JlrzJumpsOnZero :=
  ⟨decodesDss_of_funct .jlrz, fun d s1 s2 s => exec_jumped (.jlrz d s1 s2) s _ d _ rfl⟩

/-- Settles O27: the jump-and-link on exactly one. -/
theorem jloAndJlroJumpOnExactlyOne : Obligations.JloAndJlroJumpOnExactlyOne := fun d s1 s2 imm s =>
  ⟨exec_jlo d s1 imm s, exec_jumped (.jlro d s1 s2) s _ d _ rfl⟩

/-- Where pc stands after a jump-and-link (R37, R285). -/
theorem pc_of_jumped_or_fellThrough (p : Prop) [Decidable p] (d : RegIdx) (target : Word) (s t : State)
    (h : if p then Jumped d target s t else FellThrough s t) : t.pc = if p then target else s.pc + 4 := by
  split at h
  case isTrue hp =>
    obtain ⟨-, -, hpc, -⟩ := h
    rw [hpc, if_pos hp]
  case isFalse hp =>
    obtain ⟨-, -, hpc, -⟩ := h
    rw [hpc, if_neg hp]

/-- After a comparison into register `d`, `jlo` on `d` jumps where the relation `p` held and `jlz` where it did not. -/
theorem jumps_follow_comparison (i : Instr) (p : Prop) [Decidable p] (d : RegIdx) (target : Word) (s : State)
    (hd : d ≠ 0) (hi : ∃ t, exec i s = .next t ∧ WroteReg d (if p then 1 else 0) s t) :
    ∃ t u v, exec i s = .next t ∧ exec (.jlo 0 d target) t = .next u ∧ exec (.jlz 0 d target) t = .next v ∧
      u.pc = (if p then target else s.pc + 8) ∧ v.pc = (if p then s.pc + 8 else target) := by
  obtain ⟨t, next, regs, -, tpc, -⟩ := hi
  obtain ⟨u, jlo, ujumped⟩ := exec_jlo 0 d target t
  obtain ⟨v, jlz, vjumped⟩ := exec_jlz 0 d target t
  have result : t.readReg d = if p then 1 else 0 := by rw [regs, if_pos ⟨rfl, hd⟩]
  have twice : s.pc + 4 + 4 = s.pc + 8 := by rw [BitVec.add_assoc]; rfl
  refine ⟨t, u, v, next, jlo, jlz, ?_, ?_⟩
  · rw [pc_of_jumped_or_fellThrough _ _ _ _ _ ujumped, result, tpc, twice]
    by_cases hp : p <;> simp [hp]
  · rw [pc_of_jumped_or_fellThrough _ _ _ _ _ vjumped, result, tpc, twice]
    by_cases hp : p <;> simp [hp]

/-- Settles O21: the comparison leaves 1 or 0 in its register, which are the two comparands of the jumps. -/
theorem comparisonThenJumpFollowsTheRelation : Obligations.ComparisonThenJumpFollowsTheRelation := by
  intro d s1 s2 target s hd
  obtain ⟨slt, sltu, -, -⟩ := comparisonsWriteZeroOrOne d s1 s2 0 s
  exact ⟨jumps_follow_comparison _ _ d target s hd sltu, jumps_follow_comparison _ _ d target s hd slt⟩

/-! ### Loads and stores -/

/-- Settles O22: the load of two written bytes is the write of their halfword. -/
theorem loadsWriteTheHalfword : Obligations.LoadsWriteTheHalfword := fun d s1 s2 imm s lo hi =>
  ⟨fun hlo hhi => exec_wroteReg (.lh d s1 imm) s d _ (loadHalf_of_bytes d _ s lo hi hlo hhi),
    fun hlo hhi => exec_wroteReg (.lhx d s1 s2) s d _ (loadHalf_of_bytes d _ s lo hi hlo hhi)⟩

/-- Settles O4: the read of the halfword fails at its first unwritten byte, and the load with it. -/
theorem loadOfUnwrittenByteFaults : Obligations.LoadOfUnwrittenByteFaults := fun d _ _ _ s =>
  ⟨fun first => exec_load_fault _ s d _ _ rfl (readHalf_default_of_first_unwritten _ _ first),
    fun lo hlo second => exec_load_fault _ s d _ _ rfl (readHalf_default_of_second_unwritten _ _ lo hlo second),
    fun first => exec_load_fault _ s d _ _ rfl (readHalf_default_of_first_unwritten _ _ first),
    fun lo hlo second => exec_load_fault _ s d _ _ rfl (readHalf_default_of_second_unwritten _ _ lo hlo second)⟩

/-- Settles O23: the effect of each is the store of its halfword, which no default check refuses. -/
theorem storesWriteTheHalfword : Obligations.StoresWriteTheHalfword := fun d s1 s2 imm s =>
  ⟨exec_storedHalf (.sh d s1 imm) s d _ rfl, exec_storedHalf (.shx d s1 s2) s d _ rfl⟩

/-- Settles O24: of the four bytes the next tick fetches the store writes the low two and leaves the high two. -/
theorem aStoreIsSeenByTheNextFetch : Obligations.AStoreIsSeenByTheNextFetch := by
  intro d s1 imm s b2 b3 hea hb2 hb3
  obtain ⟨t, next, low, high, others, -, tpc, -⟩ := exec_storedHalf (.sh d s1 imm) s d _ rfl
  rw [hea] at low high others
  have upper (k : Nat) (h : 1 < k ∧ k < 4) : Memory.read t.mem (addrAfter (s.pc + 4) k).toNat =
      Memory.read s.mem (addrAfter (s.pc + 4) k).toNat :=
    others _ (addrAfter_toNat_ne_self _ k ⟨by omega, h.2⟩) (addrAfter_toNat_ne _ k 1 h.2 (by decide) (Nat.ne_of_gt h.1))
  have at6 : addrAfter (s.pc + 4) 2 = s.pc + 6 := addrAfter_addrAfter s.pc 4 2
  have at7 : addrAfter (s.pc + 4) 3 = s.pc + 7 := addrAfter_addrAfter s.pc 4 3
  refine ⟨t, next, ?_⟩
  rw [fetch_default, tpc, ← wordOfBytes_of_half]
  refine readWord_default_of_bytes _ _ _ _ _ _ low high ?_ ?_
  · rw [upper 2 (by decide), at6, hb2]
  · rw [upper 3 (by decide), at7, hb3]

/-! ### Halt -/

/-- `halt` under any parameters: the flag, and the counter where `HALT_COUNTS_CYCLE` says so (R146, R300). -/
theorem execWith_halt (c : Config) (imm : Word) (s : State) :
    execWith c (.halt imm) s =
      .next ((s.setHalted true).setCycle (if c.haltCountsCycle then s.cycle + 1 else s.cycle)) := rfl

/-- Settles O29: the commit of a halt writes the flag and the counter alone. -/
theorem haltSetsTheFlagAndNothingElse : Obligations.HaltSetsTheFlagAndNothingElse := by
  intro imm s
  have halts (c : Config) : ∃ t, execWith c (.halt imm) s = .next t ∧ t.halted = true ∧ SameRegs s t ∧ SameMemory s t ∧
      t.pc = s.pc ∧ t.cycle = if c.haltCountsCycle then s.cycle + 1 else s.cycle :=
    ⟨_, execWith_halt c imm s, rfl, fun _ => rfl, fun _ => rfl, rfl, rfl⟩
  exact ⟨halts Config.default, halts⟩

end Sys2Proof.Machine
end

section
/-! Family 40_engine.md, the effects (R144, R148, R149): what an instruction that completes did, said once over the 28
instructions, and from it the frame of the commit. -/

namespace Sys2Proof.Machine

/-! ### The effects of instructions that complete -/

/-- What the effect of an instruction can be once it is defined (R149): a register write, a halfword store, a jump with its
link, a jump that falls through, or the stop. -/
inductive DefinedEffect (i : Instr) (s : State) : Effect → Prop
  | writes (d : RegIdx) (v : Word) : writtenReg i = some d → isJump i = false → (∀ imm, i ≠ .halt imm) →
      storeAddress i s = none → DefinedEffect i s { reg := some (d, v) }
  | stores (ea v : Word) : isJump i = false → (∀ imm, i ≠ .halt imm) → storeAddress i s = some ea →
      DefinedEffect i s { mem := some (ea, v) }
  | jumps (d : RegIdx) (link target : Word) : writtenReg i = some d → isJump i = true → (∀ imm, i ≠ .halt imm) →
      storeAddress i s = none → DefinedEffect i s { reg := some (d, link), jump := some target }
  | fallsThrough : isJump i = true → (∀ imm, i ≠ .halt imm) → storeAddress i s = none → DefinedEffect i s { }
  | stops (imm : Word) : i = .halt imm → DefinedEffect i s { halt := true }

/-- Every defined effect is one of these. -/
theorem effectOf_defined (c : Config) (i : Instr) (s : State) (e : Effect) (he : effectOf c i s = .ok e) :
    DefinedEffect i s e := by
  have shape := effectOf_shape c i s
  rw [he] at shape
  generalize hr : (Except.ok e : Effected) = r at shape
  cases shape with
  | write d v hreg hjump hhalt hstore =>
    cases hr
    exact .writes d v hreg hjump hhalt hstore
  | load d ea hreg hjump hhalt hstore _ =>
    obtain ⟨v, -, rfl⟩ := (loadHalf_eq_ok c d ea s e).mp hr.symm
    exact .writes d v hreg hjump hhalt hstore
  | store d ea hjump hhalt hstore =>
    obtain ⟨-, rfl⟩ := (storeHalf_eq_ok c d ea s e).mp hr.symm
    exact .stores ea _ hjump hhalt hstore
  | jump taken d target hreg hjump hhalt hstore =>
    cases taken with
    | true => cases hr; exact .jumps d _ target hreg hjump hhalt hstore
    | false => cases hr; exact .fallsThrough hjump hhalt hstore
  | stop imm hi => cases hr; exact .stops imm hi

/-- By default an effect fails only where a load reads a byte of its halfword that nothing has written (R68). -/
theorem effectOf_default_error (i : Instr) (s : State) (f : Fault) (h : effectOf Config.default i s = .error f) :
    ∃ ea, ((∃ d s1 imm, i = .lh d s1 imm ∧ ea = eaImm s s1 imm) ∨
        (∃ d s1 s2, i = .lhx d s1 s2 ∧ ea = eaIndex s s1 s2)) ∧
      readHalf Config.default s.mem ea = .error f := by
  have shape := effectOf_shape Config.default i s
  rw [h] at shape
  generalize hr : (Except.error f : Effected) = r at shape
  cases shape with
  | write d v _ _ _ _ => cases hr
  | load d ea _ _ _ _ isLoad =>
    refine ⟨ea, ?_, ?_⟩
    · rcases isLoad with ⟨s1, imm, hi, hea⟩ | ⟨s1, s2, hi, hea⟩
      · exact .inl ⟨d, s1, imm, hi, hea⟩
      · exact .inr ⟨d, s1, s2, hi, hea⟩
    · unfold loadHalf at hr
      cases hread : readHalf Config.default s.mem ea with
      | error g => simpa [hread, eq_comm] using hr
      | ok v => simp [hread, writesReg] at hr
  | store d ea _ _ _ => simp [storeHalf, edgeCheck_default] at hr
  | jump taken d target _ _ _ _ => cases taken <;> cases hr
  | stop imm _ => cases hr

/-! ### The frame of a commit -/

/-- pc after a commit: a halt leaves it, anything else jumps or moves on (R37, R146). -/
theorem commit_pc (c : Config) (e : Effect) (s : State) :
    (commit c e s).pc = if e.halt then s.pc else nextPc s.pc e.jump := by
  cases h : e.halt with
  | true => simp [commit_halt c e s h]
  | false => simp [commit_run c e s h]

/-- Memory after a commit: a halt leaves it, anything else makes its store (R144). -/
theorem commit_mem (c : Config) (e : Effect) (s : State) :
    (commit c e s).mem = if e.halt then s.mem else (s.applyMem e.mem).mem := by
  cases h : e.halt with
  | true => simp [commit_halt c e s h]
  | false =>
    simp only [commit_run c e s h, State.setCycle_mem, State.setPc_mem, Bool.false_eq_true, if_false]
    rcases e.mem with _ | ⟨a, v⟩ <;> simp

/-- A register that no effect of the instruction names reads as before. -/
theorem commit_readReg_of_not_written (c : Config) (i : Instr) (s : State) (e : Effect) (he : DefinedEffect i s e)
    (r : RegIdx) (hr : writtenReg i ≠ some r) : (commit c e s).readReg r = s.readReg r := by
  rw [commit_readReg]
  cases he with
  | writes d v hd _ _ _ | jumps d v _ hd _ _ _ =>
    have other : r ≠ d := fun same => hr (same ▸ hd)
    simp [State.readReg_writeReg, other]
  | stores ea v _ _ _ => simp
  | fallsThrough _ _ _ => simp
  | stops imm _ => simp

/-- An instruction that stores to no address leaves memory; a store leaves all but its two bytes. -/
theorem commit_frame_mem (c : Config) (i : Instr) (s : State) (e : Effect) (he : DefinedEffect i s e) :
    (storeAddress i s = none → SameMemory s (commit c e s)) ∧
      ∀ ea, storeAddress i s = some ea → SameMemoryBut ea s (commit c e s) := by
  have frame (h : (commit c e s).mem = s.mem) : SameMemory s (commit c e s) := fun k => by rw [h]
  cases he with
  | writes d v _ _ _ nowhere | jumps d v _ _ _ _ nowhere | fallsThrough _ _ nowhere =>
    exact ⟨fun _ => frame (by simp [commit_mem]), fun ea somewhere => by simp [nowhere] at somewhere⟩
  | stores ea v _ _ somewhere =>
    refine ⟨fun nowhere => by simp [nowhere] at somewhere, fun ea' elsewhere k low high => ?_⟩
    obtain rfl : ea = ea' := Option.some.inj (somewhere.symm.trans elsewhere)
    rw [commit_mem]
    exact read_writeHalf_other s.mem ea v k low high
  | stops imm hi => exact ⟨fun _ => frame (by simp [commit_mem]), fun ea somewhere => by simp [hi, storeAddress] at somewhere⟩

/-! ### The statements -/

/-- Settles O31, by the five kinds of effect. -/
theorem effectsAreExclusive : Obligations.EffectsAreExclusive := by
  intro c i s e he
  cases effectOf_defined c i s e he with
  | writes d v _ _ hhalt _ => simp [hhalt]
  | stores ea v _ hhalt _ => simp [hhalt]
  | jumps d link target _ hjump hhalt _ => simp [hhalt, hjump]
  | fallsThrough _ hhalt _ => simp [hhalt]
  | stops imm hi => simp [hi]

/-- Settles O32: the commit writes what the effect names, and the effect names what the instruction does. -/
theorem onlyTheNamedRegisterAndHalfwordChange : Obligations.OnlyTheNamedRegisterAndHalfwordChange := by
  intro c i s t h
  obtain ⟨e, he, rfl⟩ := (execWith_eq_next c i s t).mp h
  have effect := effectOf_defined c i s e he
  refine ⟨commit_readReg_of_not_written c i s e effect, ?_⟩
  obtain ⟨storesNothing, stores⟩ := commit_frame_mem c i s e effect
  split
  case h_1 ea hea => exact stores ea hea
  case h_2 hnone => exact storesNothing hnone

/-- Settles O35: an operation's end is never a refusal, and its fault is its effect's, which only an unwritten byte of a load's
halfword raises. -/
theorem onlyLoadsOfUnwrittenBytesStop : Obligations.OnlyLoadsOfUnwrittenBytesStop := by
  intro i s
  rw [exec_eq_execWith]
  refine ⟨finish_ne_refused Config.default _ s, fun f h => ?_⟩
  obtain ⟨ea, isLoad, hread⟩ := effectOf_default_error i s f ((finish_eq_fault _ _ s f).mp h)
  obtain ⟨b, rfl, unwritten, place⟩ := readHalf_default_eq_error s.mem ea f hread
  refine ⟨b, rfl, unwritten, ?_⟩
  rcases isLoad with ⟨d, s1, imm, hi, rfl⟩ | ⟨d, s1, s2, hi, rfl⟩
  · exact .inl ⟨d, s1, imm, hi, place⟩
  · exact .inr ⟨d, s1, s2, hi, place⟩

/-- Moving pc by 4 keeps its residue modulo 4, past 0xFFFF too (R38). -/
theorem add_four_mod_four (a : Word) : (a + 4).toNat % 4 = a.toNat % 4 := by
  bv_omega

/-- Settles O43: without a jump the commit leaves pc or moves it by 4. -/
theorem sequentialAdvanceKeepsAlignment : Obligations.SequentialAdvanceKeepsAlignment := by
  intro c i s t notJump h
  obtain ⟨e, he, rfl⟩ := (execWith_eq_next c i s t).mp h
  rw [commit_pc]
  cases effectOf_defined c i s e he with
  | writes d v _ _ _ _ => exact add_four_mod_four s.pc
  | stores ea v _ _ _ => exact add_four_mod_four s.pc
  | jumps d link target _ isJump _ _ => simp [notJump] at isJump
  | fallsThrough isJump _ _ => simp [notJump] at isJump
  | stops imm _ => rfl

end Sys2Proof.Machine
end

section
/-! Family 40_engine.md, the tick and runs (R141 to R152, R156, R157), with what the fetch and the parameters of 20_memory.md
section 3 make of it. First the ticks of each kind; then the fetch; then runs; then the statements. -/

namespace Sys2Proof.Machine

/-! ### Ticks of each kind -/

/-- A running engine steps to what `exec` makes of the instruction it fetches and decodes (R144). -/
theorem step_of_decode (s : State) (w : InstrWord) (i : Instr) (hrun : s.halted = false)
    (hw : fetch Config.default s = .ok w) (hi : decode w = .ok i) : step s = exec i s := by
  rw [step_eq_tickWith, exec_eq_execWith]
  exact tickWith_of_decode Config.default s w i hrun hw hi

/-- A tick of a halted engine answers its own state (R151). -/
theorem tickWith_of_halted (c : Config) (s : State) (h : s.halted = true) : tickWith c s = .next s := by
  simp [tickWith, tickAround, h]

/-- A halted engine steps to its own state (R151). -/
theorem step_of_halted (s : State) (h : s.halted = true) : step s = .next s := by
  rw [step_eq_tickWith, tickWith_of_halted _ s h]

/-- A running engine whose fetch fails raises that failure (R312). -/
theorem tickWith_of_fetch_error (c : Config) (s : State) (f : Fault) (hrun : s.halted = false)
    (hf : fetch c s = .error f) : tickWith c s = .fault f := by
  simp [tickWith, tickAround, hrun, hf, raise]

/-- A running engine that fetches an invalid word raises `INVALID_INSTRUCTION` with it (R147). -/
theorem tickWith_of_decode_error (c : Config) (s : State) (w : InstrWord) (r : DecodeReject) (hrun : s.halted = false)
    (hw : fetch c s = .ok w) (hr : decodeWith c w = .error r) : tickWith c s = .fault (.invalidInstruction w) := by
  simp [tickWith, tickAround, hrun, hw, hr, raise]

/-- A tick that answers a running state returned `SUCCESS`. -/
theorem tick_of_next_running (c : Config) (s t : State) (h : tickWith c s = .next t) (hrun : t.halted = false) :
    tick c s = (some .success, t) := by
  simp [tick, h, tickStatus, stateAfter, hrun]

/-- The statuses of the host's operations are never a tick's (R150). -/
theorem tickStatus_ne_host_status (x : Answer) :
    tickStatus x ≠ some .invalidArgument ∧ tickStatus x ≠ some .outOfMemory := by
  cases x with
  | next t => cases ht : t.halted <;> simp [tickStatus, ht]
  | fault f => cases f <;> simp [tickStatus]
  | refused r => simp [tickStatus]

/-- A tick returns `INVALID_ADDRESS` for that fault alone (R150). -/
theorem tickStatus_eq_invalidAddress (x : Answer) (a : Word) (h : tickStatus x = some (.invalidAddress a)) :
    x = .fault (.invalidAddress a) := by
  cases x with
  | next t => cases ht : t.halted <;> simp [tickStatus, ht] at h
  | fault f => cases f <;> simp_all [tickStatus]
  | refused r => simp [tickStatus] at h

/-! ### The fetch -/

/-- By default a word read fails only at an unwritten byte (R68). -/
theorem readWord_default_eq_error (m : Memory) (a : Word) (f : Fault) (h : readWord Config.default m a = .error f) :
    ∃ b, f = .unwrittenByte b := by
  unfold readWord at h
  rw [edgeCheck_default] at h
  have byte (k : Word) (g : Fault) (hk : readByte m k = .error g) : ∃ b, g = .unwrittenByte b :=
    ⟨k, ((readByte_eq_error m k g).mp hk).2⟩
  split at h
  case h_1 heq => cases heq
  case h_2 =>
    split at h <;> cases h
    all_goals exact byte _ _ ‹_›

/-- A word is read back where it was written, past 0xFFFF too (R63, R67). -/
theorem readWord_writeWord (m : Memory) (a : Word) (w : InstrWord) :
    readWord Config.default (writeWord m a w) a = .ok w := by
  have apart (i j : Nat) (h : i < 4 ∧ j < 4 ∧ i ≠ j := by decide) := addrAfter_toNat_ne a i j h.1 h.2.1 h.2.2
  have start (k : Nat) (h : 0 < k ∧ k < 4 := by decide) := (addrAfter_toNat_ne_self a k h).symm
  apply readWord_default_of_word
  · rw [read_writeWord, if_neg (start 3), if_neg (start 2), if_neg (start 1), if_pos rfl]
  · rw [read_writeWord, if_neg (apart 1 3), if_neg (apart 1 2), if_pos rfl]
  · rw [read_writeWord, if_neg (apart 2 3), if_pos rfl]
  · rw [read_writeWord, if_pos rfl]

/-- Under `EDGE_WRAP = fault` an access that runs past 0xFFFF is refused (R67). -/
theorem edgeCheck_fault (c : Config) (a : Word) (n : Nat) (hc : c.edgeWrap = .fault) (h : 65536 < a.toNat + n) :
    edgeCheck c a n = .error (.invalidAddress a) := by
  simp [edgeCheck, hc, Nat.not_le.mpr h]

/-- A word read that the check of rule R67 refuses. -/
theorem readWord_of_edgeCheck_error (c : Config) (m : Memory) (a : Word) (f : Fault) (h : edgeCheck c a 4 = .error f) :
    readWord c m a = .error f := by
  simp only [readWord, h]

/-- Under `MISALIGNED_FETCH = fault` the fetch at a misaligned pc is refused, whatever memory holds (R66). -/
theorem fetch_misaligned (c : Config) (s : State) (hc : c.misalignedFetch = .fault) (h : s.pc.toNat % 4 ≠ 0) :
    fetch c s = .error (.invalidAddress s.pc) := by
  simp [fetch, hc, h]

/-- Under `EDGE_WRAP = fault` the fetch above 0xFFFC is refused, by this check or by the one before it (R67, R141). -/
theorem fetch_past_edge (c : Config) (s : State) (hc : c.edgeWrap = .fault) (h : 0xFFFC < s.pc.toNat) :
    fetch c s = .error (.invalidAddress s.pc) := by
  have refused : readWord c s.mem s.pc = .error (.invalidAddress s.pc) :=
    readWord_of_edgeCheck_error c s.mem s.pc _ (edgeCheck_fault c s.pc 4 hc (by omega))
  unfold fetch
  split
  · split
    · exact refused
    · rfl
  · exact refused

/-! ### The counter -/

@[simp] theorem State.applyReg_setCycle (s : State) (r : Option (RegIdx × Word)) (v : Word) :
    (s.setCycle v).applyReg r = (s.applyReg r).setCycle v := by
  rcases r with _ | ⟨i, x⟩
  · rfl
  · simp only [State.applyReg, State.writeReg]
    split <;> rfl

@[simp] theorem State.applyMem_setCycle (s : State) (r : Option (Word × Word)) (v : Word) :
    (s.setCycle v).applyMem r = (s.applyMem r).setCycle v := by
  cases r <;> rfl

/-- The counter moves in a commit by an amount that does not depend on it. -/
theorem commit_cycle_setCycle (c : Config) (e : Effect) (s : State) (v : Word) :
    (commit c e (s.setCycle v)).cycle = v + ((commit c e s).cycle - s.cycle) := by
  rw [commit_cycle, commit_cycle, State.setCycle_cycle]
  split <;> bv_omega

/-- A commit from another counter value differs in the counter alone, which moves by the same amount (R44). -/
theorem commit_setCycle (c : Config) (e : Effect) (s : State) (v : Word) :
    commit c e (s.setCycle v) = (commit c e s).setCycle (v + ((commit c e s).cycle - s.cycle)) := by
  rw [← commit_cycle_setCycle]
  cases h : e.halt with
  | true =>
    rw [commit_halt c e s h, commit_halt c e _ h]
    rfl
  | false =>
    rw [commit_run c e s h, commit_run c e _ h, State.applyReg_setCycle, State.applyMem_setCycle]
    rfl

/-! ### Runs -/

/-- A run that is still going made `SUCCESS` of every tick, each of which counted (R145). -/
theorem cycle_of_runTicks_running (c : Config) (n : Nat) (s t : State) (h : runTicks c n s = .running t) :
    t.cycle = s.cycle + BitVec.ofNat 16 n := by
  induction n generalizing s with
  | zero => cases h; simp
  | succ n ih =>
    unfold runTicks at h
    split at h
    case h_1 u hu =>
      split at h
      case isTrue => cases h
      case isFalse going =>
        have success := tick_of_next_running c s u hu (Bool.eq_false_iff.mpr going)
        have counted := tick_cycle_of_success c s (by rw [success])
        rw [success] at counted
        rw [ih u h, counted, BitVec.add_assoc, Nat.add_comm n 1, BitVec.ofNat_add]
        rfl
    case h_2 => cases h
    case h_3 => cases h

/-- The last tick of a final run: it started running and answered the run's end with the flag set (R157). -/
theorem last_tick_of_final (c : Config) (n : Nat) (s t : State) (hrun : s.halted = false)
    (h : runTicks c n s = .final t) : ∃ u, u.halted = false ∧ tickWith c u = .next t ∧ t.halted = true := by
  induction n generalizing s with
  | zero => cases h
  | succ n ih =>
    unfold runTicks at h
    split at h
    case h_1 u hu =>
      split at h
      case isTrue stopped => cases h; exact ⟨s, hrun, hu, stopped⟩
      case isFalse going => exact ih u (Bool.eq_false_iff.mpr going) h
    case h_2 => cases h
    case h_3 => cases h

/-- A failed run ends in the running state whose tick failed (R147, R157). -/
theorem last_tick_of_failed (c : Config) (n : Nat) (s t : State) (f : Fault) (hrun : s.halted = false)
    (h : runTicks c n s = .failed f t) : t.halted = false ∧ tickWith c t = .fault f := by
  induction n generalizing s with
  | zero => cases h
  | succ n ih =>
    unfold runTicks at h
    split at h
    case h_1 u hu =>
      split at h
      case isTrue => cases h
      case isFalse going => exact ih u (Bool.eq_false_iff.mpr going) h
    case h_2 f' hf => cases h; exact ⟨hrun, hf⟩
    case h_3 => cases h

/-- A run of a running engine is its ticks. -/
theorem runFor_of_running (c : Config) (n : Nat) (s : State) (h : s.halted = false) : runFor c n s = runTicks c n s := by
  simp [runFor, h]

/-- A run that did anything started in a running engine (R157). -/
theorem running_of_runFor (c : Config) (n : Nat) (s : State) (h : runFor c n s ≠ .notStarted s) : s.halted = false := by
  rw [← Bool.not_eq_true]
  exact fun halted => h (by simp [runFor, halted])

/-- A tick of a running engine that sets the flag executed a `halt`, which the released engine executes again (R146). -/
theorem executesHalt_of_tick (c : Config) (u t : State) (hrun : u.halted = false) (h : tickWith c u = .next t)
    (ht : t.halted = true) : ExecutesHalt c (deassertReset t) := by
  have shape := tick_shape c u
  have after : (tick c u).2 = t := by simp [tick, h, stateAfter]
  generalize tick c u = r at shape after
  cases shape with
  | halted hu => simp [hrun] at hu
  | failed f _ hf => simp [h] at hf
  | committed w i e _ hw hi he =>
    have stops : e.halt = true := by simpa [← after, commit_halted, hrun] using ht
    obtain ⟨imm, rfl⟩ := (effectOf_halt_iff c i u e he).mp stops
    refine ⟨deassertReset_halted t, w, imm, ?_, hi⟩
    rw [← hw, ← after, commit_halt c e u stops]
    rfl

/-! ### The statements -/

/-- Settles O36: the four bytes are the fetched word. -/
theorem aStepRunsTheDecodedInstruction : Obligations.AStepRunsTheDecodedInstruction := by
  intro s b0 b1 b2 b3 i hrun h0 h1 h2 h3 hi
  have word : fetch Config.default s = .ok (wordOfBytes b0 b1 b2 b3) := by
    rw [fetch_default]
    exact readWord_default_of_bytes s.mem s.pc b0 b1 b2 b3 h0 h1 h2 h3
  obtain ⟨decodes, -⟩ := (decodeBytes_eq_ok b0 b1 b2 b3 [] [] i).mp hi
  exact step_of_decode s _ i hrun word decodes

/-- Settles O37: the word placed at pc is the one fetched, and it decodes to its instruction. -/
theorem thePlacedInstructionRunsNext : Obligations.ThePlacedInstructionRunsNext := by
  intro s i
  have placed : tableWord 32 (encode i).toNat = encode i := by
    rw [tableWord, Nat.mod_eq_of_lt (encode i).isLt, BitVec.ofNat_toNat, BitVec.setWidth_eq]
  unfold State.withFetchWord
  rw [placed]
  refine step_of_decode _ (encode i) i rfl ?_ (decode_encode i)
  rw [fetch_default]
  exact readWord_writeWord s.mem s.pc (encode i)

/-- Any number of steps from a state that steps to itself ends in it. -/
theorem run_of_step_self (M : Host.Core) (s : M.State) (h : M.step s = .next s) (n : Nat) : M.run n s = .next s := by
  induction n with
  | zero => rfl
  | succ n ih =>
    rw [Host.Core.run, h]
    exact ih

/-- Settles O38: a halted engine steps to itself. -/
theorem aHaltedEngineStaysAsItIs : Obligations.AHaltedEngineStaysAsItIs := fun s h =>
  ⟨fun c => tick_of_halted c s h, run_of_step_self Sys2Proof.core s (step_of_halted s h)⟩

/-- Settles O39: the tick's fault is the invalid word's, and a failed tick changes nothing. -/
theorem anInvalidWordChangesNothing : Obligations.AnInvalidWordChangesNothing := fun c s w r hrun hw hr =>
  tick_of_fault c s _ (tickWith_of_decode_error c s w r hrun hw hr)

/-- Settles O40, by the three ways a tick can end. -/
theorem aFailedTickChangesNothing : Obligations.AFailedTickChangesNothing := by
  intro c s
  refine ⟨?_, tickStatus_ne_host_status (tickWith c s)⟩
  have shape := tick_shape c s
  generalize tick c s = r at shape
  cases shape with
  | halted _ => exact fun _ _ => rfl
  | failed f _ _ => exact fun _ _ => rfl
  | committed w i e _ _ _ _ => cases e.halt <;> simp

/-- Settles O42, by the three ways a tick can end: only the commit of an effect that does not halt moves pc. -/
theorem pcAdvancesOrJumps : Obligations.PcAdvancesOrJumps := by
  intro c s
  have shape := tick_shape c s
  generalize tick c s = r at shape
  cases shape with
  | halted _ => exact ⟨fun h => (by cases h), fun _ => rfl⟩
  | failed f _ _ => exact ⟨fun h => absurd h (tickStatus_fault_ne_success f), fun _ => rfl⟩
  | committed w i e hrun hw hi he =>
    refine ⟨fun h => ⟨w, i, e, hw, hi, he, ?_⟩, fun h => ?_⟩
    · have runs : e.halt = false := by simpa using h
      simp only [commit_pc, runs, Bool.false_eq_true, if_false]
      rfl
    · have stops : e.halt = true := by simpa using h
      simp only [commit_pc, stops, if_true]

/-- Settles O44: the fetch checks pc before it reads anything. -/
theorem misalignedFetchParameterFaults : Obligations.MisalignedFetchParameterFaults := fun c s hc hrun hpc =>
  tick_of_fault c s _ (tickWith_of_fetch_error c s _ hrun (fetch_misaligned c s hc hpc))

/-- Settles O45: a word above 0xFFFC and a halfword at 0xFFFF run past the edge. -/
theorem edgeWrapParameterFaults : Obligations.EdgeWrapParameterFaults := by
  intro c s hc
  have refused : edgeCheck c 0xFFFF 2 = .error (.invalidAddress 0xFFFF) := edgeCheck_fault c _ 2 hc (by decide)
  have load (i : Instr) (d : RegIdx) (ea : Word) (h : effectOf c i s = loadHalf c d ea s) (hea : ea = 0xFFFF) :
      execWith c i s = .fault (.invalidAddress 0xFFFF) :=
    execWith_fault c i s _ (by rw [h, hea]; simp only [loadHalf, readHalf, refused])
  have store (i : Instr) (d : RegIdx) (ea : Word) (h : effectOf c i s = storeHalf c d ea s) (hea : ea = 0xFFFF) :
      execWith c i s = .fault (.invalidAddress 0xFFFF) :=
    execWith_fault c i s _ (by rw [h, hea]; simp only [storeHalf, refused])
  exact ⟨fun hrun hpc => tick_of_fault c s _ (tickWith_of_fetch_error c s _ hrun (fetch_past_edge c s hc hpc)),
    fun d s1 imm hea => ⟨load _ d _ rfl hea, store _ d _ rfl hea⟩,
    fun d s1 s2 hea => ⟨load _ d _ rfl hea, store _ d _ rfl hea⟩⟩

/-- Settles O46, by what a tick can answer: the fetch and the loads fail at unwritten bytes alone. -/
theorem noAddressIsInvalidByDefault : Obligations.NoAddressIsInvalidByDefault := by
  intro s a
  have noFault : step s ≠ .fault (.invalidAddress a) := by
    intro h
    rcases tickAround_cases Config.default exec s with
      ⟨-, h'⟩ | ⟨-, f, hf, h'⟩ | ⟨-, w, r, -, -, h'⟩ | ⟨-, w, i, -, -, h'⟩
    all_goals rw [step, h'] at h
    · cases h
    · cases h
      obtain ⟨b, hb⟩ := readWord_default_eq_error s.mem s.pc _ hf
      cases hb
    · cases h
    · obtain ⟨-, onlyUnwritten⟩ := onlyLoadsOfUnwrittenBytesStop i s
      obtain ⟨b, hb, -⟩ := onlyUnwritten _ h
      cases hb
  refine ⟨noFault, fun h => noFault ?_⟩
  rw [step_eq_tickWith]
  exact tickStatus_eq_invalidAddress _ a h

/-- Settles O34: fetch, decode and effect do not see the counter, and the commit moves it by an amount of its own. -/
theorem theCycleCounterInfluencesNothing : Obligations.TheCycleCounterInfluencesNothing := by
  intro c s v
  rcases tickAround_cases c (execWith c) s with
    ⟨halted, h⟩ | ⟨hrun, f, hf, h⟩ | ⟨hrun, w, r, hw, hr, h⟩ | ⟨hrun, w, i, hw, hi, h⟩
  · rw [show tickWith c s = _ from h]
    simp [tickWith_of_halted c (s.setCycle v) halted]
  · rw [show tickWith c s = _ from h]
    exact tickWith_of_fetch_error c (s.setCycle v) f hrun hf
  · rw [show tickWith c s = _ from h]
    exact tickWith_of_decode_error c (s.setCycle v) w r hrun hw hr
  · rw [show tickWith c s = _ from h, tickWith_of_decode c (s.setCycle v) w i hrun hw hi, execWith, execWith,
      effectOf_setCycle]
    cases effectOf c i s with
    | error f => rfl
    | ok e => exact congrArg Host.Outcome.next (commit_setCycle c e s v)

/-- Settles O51: a run that is still going made `SUCCESS` of every tick. -/
theorem theCounterCountsTicks : Obligations.TheCounterCountsTicks := by
  intro c n s t h
  rw [runFor_of_running c n s (running_of_runFor c n s (by simp [h]))] at h
  exact cycle_of_runTicks_running c n s t h

/-- Settles O52, by the last tick of the run. -/
theorem runsEndOnAHaltOrRepeatTheirFailure : Obligations.RunsEndOnAHaltOrRepeatTheirFailure := by
  intro c n s t
  refine ⟨fun h => ?_, fun f h => ?_⟩
  · have hrun := running_of_runFor c n s (by simp [h])
    rw [runFor_of_running c n s hrun] at h
    obtain ⟨u, urun, hu, ht⟩ := last_tick_of_final c n s t hrun h
    exact ⟨ht, executesHalt_of_tick c u t urun hu ht⟩
  · have hrun := running_of_runFor c n s (by simp [h])
    rw [runFor_of_running c n s hrun] at h
    exact last_tick_of_failed c n s t f hrun h

/-- The tick of a jump to itself counts one cycle and changes nothing else (R280). -/
theorem tickWith_of_jump_to_itself (s : State) (w : InstrWord) (hrun : s.halted = false)
    (hw : fetch Config.default s = .ok w) (hi : decode w = .ok (.jlz 0 0 s.pc)) :
    tickWith Config.default s = .next (s.setCycle (s.cycle + 1)) :=
  tickWith_of_decode Config.default s w _ hrun hw hi

/-- Settles O28, by induction on the number of ticks from every such state. -/
theorem aJumpToItselfHangs : Obligations.AJumpToItselfHangs := by
  intro s w hrun hw hi n
  rw [runFor_of_running _ n s hrun]
  induction n generalizing s with
  | zero => exact ⟨s, rfl⟩
  | succ n ih =>
    obtain ⟨t, ht⟩ := ih (s.setCycle (s.cycle + 1)) hrun hw hi
    refine ⟨t, ?_⟩
    rw [runTicks, tickWith_of_jump_to_itself s w hrun hw hi]
    simpa [hrun] using ht

/-- Settles O30: by default a halt sets the flag alone, so that the released engine is in the state it was in. -/
theorem aHaltRepeatsAfterRelease : Obligations.AHaltRepeatsAfterRelease := by
  intro s w imm hrun hw hi
  have halts : step s = .next (s.setHalted true) := step_of_decode s w _ hrun hw hi
  have released : deassertReset (s.setHalted true) = s := by
    rw [deassertReset_eq_setHalted, ← hrun]
    rfl
  exact ⟨_, halts, step_of_halted _ rfl, released ▸ halts⟩

end Sys2Proof.Machine
end

section
/-! Families 70_reset_and_hazards.md and 20_memory.md section 9: the host's reset, its memory accesses, the program load and the
boot order (R81, R82, R340 to R344). First the bytes of a loaded file as a fetch reads them; then the load by its two cases; then
the statements. -/

namespace Sys2Proof.Machine

/-! ### The host's halfword write and the fetch of a loaded word -/

/-- By default no host halfword write is refused (R81). -/
theorem applyWrite_half_default (a v : Word) (s : State) :
    applyWrite Config.default (.half a v) s = s.setMem (writeHalf s.mem a v) := by
  simp only [applyWrite, edgeCheck_default]

/-- Below the top of memory the addresses after an address count up. -/
theorem addrAfter_toNat (a : Word) (k : Nat) (h : a.toNat + k < 65536) : (addrAfter a k).toNat = a.toNat + k := by
  rw [addrAfter, BitVec.toNat_add, BitVec.toNat_ofNat, Nat.add_mod_mod, Nat.mod_eq_of_lt h]

/-- A file that begins with the bytes of a word is read as that word where it was stored (R63, R82). -/
theorem readWord_storeBytes (m : Memory) (a : Word) (w : InstrWord) (rest : List Byte) (h : a.toNat + 4 ≤ 65536) :
    readWord Config.default (storeBytes m a.toNat (bytesOf w ++ rest)) a = .ok w := by
  have stored (k : Nat) (hk : k < 4) : Memory.read (storeBytes m a.toNat (bytesOf w ++ rest)) (addrAfter a k).toNat =
      some ((bytesOf w ++ rest)[k]'(by simp [bytesOf]; omega)) := by
    rw [addrAfter_toNat a k (by omega)]
    exact read_storeBytes_inside _ _ _ _ _
  have first := stored 0 (by decide)
  rw [addrAfter_zero] at first
  exact readWord_default_of_word _ a w first (stored 1 (by decide)) (stored 2 (by decide)) (stored 3 (by decide))

/-! ### The load by its two cases -/

/-- A load that fits stores the file (R82). -/
theorem load_of_fits (draw file : List Byte) (base : Word) (size : Nat) (s : State)
    (h : file.length ≤ size ∧ base.toNat + file.length ≤ 65536) :
    load draw file base size s = (.success, s.setMem (storeBytes s.mem base.toNat file)) := by
  simp [load, (loadFails_eq_false file base size).mpr h]

/-- A load that does not fit leaves the drawn bytes in its region (R82, D24). -/
theorem load_of_not_fits (draw file : List Byte) (base : Word) (size : Nat) (s : State)
    (h : ¬ (file.length ≤ size ∧ base.toNat + file.length ≤ 65536)) :
    load draw file base size s =
      (.outOfMemory, s.setMem (storeBytes s.mem base.toNat (draw.take (min size (65536 - base.toNat))))) := by
  have fails : loadFails file base size = true := by rwa [← Bool.not_eq_false, loadFails_eq_false]
  simp [load, fails]

/-- Whatever becomes of it, the load writes memory and nothing else. -/
theorem load_eq_setMem (draw file : List Byte) (base : Word) (size : Nat) (s : State) :
    ∃ m, (load draw file base size s).2 = s.setMem m := by
  unfold load
  split
  · exact ⟨_, rfl⟩
  · exact ⟨_, rfl⟩

/-! ### The statements -/

/-- Settles O53: the three named updates of `assert_reset`, the counter's by its parameter. -/
theorem assertResetWritesPcAndTheFlag : Obligations.AssertResetWritesPcAndTheFlag := by
  intro c s
  refine ⟨rfl, rfl, fun _ => rfl, fun _ => rfl, ?_, rfl, rfl⟩
  rw [assertReset, State.setCycle_cycle]
  cases c.resetCycle <;> rfl

/-- Settles O56: the host's accesses are the instructions' own. -/
theorem theHostAndTheInstructionsShareMemory : Obligations.TheHostAndTheInstructionsShareMemory := by
  intro a b v s
  obtain ⟨byteWrite, -⟩ := writesDecomposeLittleEndian s.mem a
  obtain ⟨byteReadBack, -⟩ := byteWrite b
  rw [applyWrite_half_default]
  refine ⟨byteReadBack, readHalf_writeHalf s.mem a v, fun d s1 imm hd hea => ?_⟩
  have read : readHalf Config.default (writeHalf s.mem a v) (eaImm s s1 imm) = .ok v := by
    rw [hea, readHalf_writeHalf]
  obtain ⟨t, next, regs, -⟩ := exec_wroteReg (.lh d s1 imm) (s.setMem (writeHalf s.mem a v)) d v (by
    rw [effectOf, lhEffect, loadHalf]
    exact read ▸ rfl)
  exact ⟨t, next, by rw [regs, if_pos ⟨rfl, hd⟩]⟩

/-- Settles O57: where the file fits it is what stands in memory; where it does not, the drawn bytes stay in the region. -/
theorem theLoadPlacesTheFile : Obligations.TheLoadPlacesTheFile := by
  intro draw file base size s
  have frame : SameRegs s (load draw file base size s).2 ∧ (load draw file base size s).2.pc = s.pc ∧
      (load draw file base size s).2.halted = s.halted ∧ (load draw file base size s).2.cycle = s.cycle := by
    obtain ⟨m, hm⟩ := load_eq_setMem draw file base size s
    rw [hm]
    exact ⟨fun _ => rfl, rfl, rfl, rfl⟩
  by_cases fits : file.length ≤ size ∧ base.toNat + file.length ≤ 65536
  · rw [load_of_fits draw file base size s fits] at frame ⊢
    refine ⟨⟨fun _ => fits, fun _ => rfl⟩, fun _ => ⟨fun k hk => ?_, fun a ha => ?_⟩, fun h => absurd rfl h, frame⟩
    · exact read_storeBytes_inside file s.mem base.toNat k hk
    · exact read_storeBytes_outside file s.mem base.toNat a ha
  · rw [load_of_not_fits draw file base size s fits] at frame ⊢
    refine ⟨⟨fun h => (by cases h), fun h => absurd h fits⟩, fun h => (by cases h),
      fun _ => ⟨rfl, fun a ha => ?_⟩, frame⟩
    refine read_storeBytes_outside _ s.mem base.toNat a ?_
    rw [List.length_take]
    omega

/-- Settles O58: the load leaves the first instruction's word at the reset vector, where the released engine fetches. -/
theorem bootRunsTheFirstInstruction : Obligations.BootRunsTheFirstInstruction := by
  intro u i rest size hsize hspace
  have len : (encodeBytes i ++ rest).length = rest.length + 4 := by
    simp [encodeBytes, bytesOf]
  have vector : Config.default.resetVector.toNat = 256 := rfl
  have loaded := load_of_fits [] (encodeBytes i ++ rest) Config.default.resetVector size
    (assertReset Config.default (State.create u)) (by rw [len, vector]; omega)
  refine ⟨_, by rw [boot, loaded], rfl, rfl, ?_⟩
  refine step_of_decode _ (encode i) i rfl ?_ (decode_encode i)
  exact readWord_storeBytes _ Config.default.resetVector (encode i) rest (by rw [vector]; omega)

end Sys2Proof.Machine
end

section
/-! Family 30_encoding.md, section 6: the assembler (R112, R113, R116). First where a label's address can come from and what an
output implies for each instruction; then the statements. -/

namespace Sys2Proof.Machine

/-- A label that the source nowhere defines is not in its label table (R112). -/
theorem lookup_labelsFrom_of_not_mem (p : AsmParams) (gs : List Group) (loc : Nat) (table : List (String × Nat))
    (name : String) (h : labelsFrom p loc gs = .ok table) (hname : .label name ∉ gs) : table.lookup name = none := by
  induction gs generalizing loc table with
  | nil => cases h; rfl
  | cons g rest ih =>
    have notRest : .label name ∉ rest := fun later => hname (List.mem_cons_of_mem g later)
    cases g with
    | label other =>
      simp only [labelsFrom] at h
      split at h
      case h_1 => cases h
      case h_2 table' htable =>
        split at h
        case isTrue => cases h
        case isFalse =>
          cases h
          have differs : name ≠ other := fun same => hname (same ▸ List.mem_cons_self)
          rw [List.lookup_cons, beq_eq_false_iff_ne.mpr differs]
          exact ih loc table' htable notRest
    | instr i => exact ih _ _ h notRest
    | half n => exact ih _ _ h notRest
    | org n =>
      simp only [labelsFrom] at h
      split at h
      case h_1 => cases h
      case h_2 => exact ih _ _ h notRest

/-- Output with bytes before it is output (R116). -/
theorem before_eq_ok (bytes : List Byte) (rest : Except AsmError (List Byte)) (l : List Byte)
    (h : before bytes rest = .ok l) : ∃ l', rest = .ok l' := by
  cases rest with
  | ok l' => exact ⟨l', rfl⟩
  | error e => cases h

/-- Where a list of groups has an output, so has its tail, and an instruction at its head has its operand resolved. -/
theorem emitFrom_cons_eq_ok (c : Config) (p : AsmParams) (table : List (String × Nat)) (loc : Nat) (g : Group)
    (rest : List Group) (bytes : List Byte) (h : emitFrom c p table loc (g :: rest) = .ok bytes) :
    (∃ loc' bytes', emitFrom c p table loc' rest = .ok bytes') ∧
      ∀ i, g = .instr i → ∃ r, resolveInstr p table i = .ok r := by
  cases g with
  | label name => exact ⟨⟨loc, bytes, h⟩, fun i hi => by cases hi⟩
  | instr i =>
    simp only [emitFrom] at h
    split at h
    case h_1 => cases h
    case h_2 r hr =>
      split at h
      case h_1 => cases h
      case h_2 => exact ⟨⟨_, before_eq_ok _ _ _ h⟩, fun i' hi => ⟨r, by cases hi; exact hr⟩⟩
  | half n =>
    simp only [emitFrom] at h
    split at h
    case h_1 => cases h
    case h_2 => exact ⟨⟨_, before_eq_ok _ _ _ h⟩, fun i hi => by cases hi⟩
  | org n =>
    simp only [emitFrom] at h
    split at h
    case h_1 => cases h
    case h_2 =>
      split at h
      case isTrue => cases h
      case isFalse => exact ⟨⟨_, before_eq_ok _ _ _ h⟩, fun i hi => by cases hi⟩

/-- A source that has an output has every instruction's operand resolved, wherever the instruction stands (R116). -/
theorem resolves_of_emitFrom (c : Config) (p : AsmParams) (table : List (String × Nat)) (gs : List Group) (loc : Nat)
    (bytes : List Byte) (h : emitFrom c p table loc gs = .ok bytes) (i : SymInstr) (hi : .instr i ∈ gs) :
    ∃ r, resolveInstr p table i = .ok r := by
  induction gs generalizing loc bytes with
  | nil => cases hi
  | cons g rest ih =>
    obtain ⟨⟨loc', bytes', hrest⟩, head⟩ := emitFrom_cons_eq_ok c p table loc g rest bytes h
    rcases List.mem_cons.mp hi with here | later
    · exact head i here.symm
    · exact ih loc' bytes' hrest later

/-- Settles O60: an output needs the reference resolved, and the label table does not hold the name. -/
theorem anUnknownLabelFailsAssembly : Obligations.AnUnknownLabelFailsAssembly := by
  intro c p base gs op d s1 name hi hname bytes h
  unfold assembleGroupsWith at h
  split at h
  case h_1 => cases h
  case h_2 table htable =>
    have unknown := lookup_labelsFrom_of_not_mem p gs _ table name htable hname
    obtain ⟨r, hr⟩ := resolves_of_emitFrom c p table gs _ bytes h _ hi
    simp [resolveInstr, resolve, unknown] at hr

/-- Settles O59: each name is in no mnemonic table and expands by its own row. -/
theorem pseudoInstructionsExpandToOneInstruction : Obligations.PseudoInstructionsExpandToOneInstruction :=
  fun _ _ _ => ⟨rfl, rfl, rfl, rfl, rfl, rfl, rfl, rfl⟩

end Sys2Proof.Machine
end
